-- ==== Sys2Proof/Word.lean ====
section
/-! DEFINITION. The 64-bit cell value of the machine and the two facts of plain arithmetic the spec names for it:
the range i64 and the reduction wrap64 (spec/00_scope.md R6, R8, R9). -/

namespace Sys2Proof

/-- A cell, and every ALU operand: signed 64-bit two's complement (00_scope.md R6, CELL_BITS = 64).
Its value as a mathematical integer is `toInt`. -/
abbrev Word := BitVec 64

/-- `v in i64`: the integers from −2^63 to 2^63 − 1 (00_scope.md R8). -/
abbrev InI64 (v : Int) : Prop := -(2 ^ 63) ≤ v ∧ v < 2 ^ 63

/-- `wrap64(v)`: the one i64 value congruent to `v` modulo 2^64 (00_scope.md R8). -/
def wrap64 (v : Int) : Word := BitVec.ofInt 64 v

end Sys2Proof
end

