-- ==== Sys2Proof/Config.lean ====
section
/-! DEFINITION. The parameters of spec/00_scope.md R6. An instance has one value of each, for good; every rule is
modelled for all their values. The machine leaves no value open, so there is no free value here. CELL_BITS, PC_BITS
and RB_BITS are the width of `Word`; INPUT_DEPTH is unbounded (92_eei_decisions.md D31): the queue is a list. -/

namespace Sys2Proof

/-- ARITH_OVERFLOW: what `add`, `mul` and `arb` do when the exact result leaves i64 (41_alu.md R106). -/
inductive OverflowMode where
  | wrap
  | fault
  deriving DecidableEq, Repr

/-- JUMP_TARGET_EVAL: when `jit` and `jif` evaluate their target operand (44_jumps.md R113, decision D38). -/
inductive JumpEval where
  | lazy
  | eager
  deriving DecidableEq, Repr

/-- The parameters of one instance (00_scope.md R6). -/
structure Config where
  memSize : Nat
  arithOverflow : OverflowMode
  strictDecode : Bool
  jumpTargetEval : JumpEval
  deriving DecidableEq, Repr

/-- This hardware's values (00_scope.md R6; decisions D2, D3, D8, D38). -/
def Config.hw : Config :=
  { memSize := 65535, arithOverflow := .wrap, strictDecode := false, jumpTargetEval := .lazy }

/-- The parameter values the spec speaks of: MEM_SIZE ≥ 1 (00_scope.md R6).
DEDUCED (log entry 3): MEM_SIZE is below 2^63, so that the exact sum `pc + width` of 10_state.md R18 is a value of the
64-bit `pc` of R17. -/
abbrev Config.Legal (c : Config) : Prop := 1 ≤ c.memSize ∧ c.memSize < 2 ^ 63

end Sys2Proof
end

