-- ==== Sys2Proof/Syntax.lean ====
section
/-! DEFINITION. The instructions: one constructor per row of spec/opcode_table.json, over the operand type of
spec/30_encoding.md R63. What a word decodes to stands in Decode.lean, what an instruction does in Machine/. -/

namespace Sys2Proof

/-- An operand: the tagged union of 30_encoding.md R63.
`push` and `pop` are the source's two reserved placeholders; no word decodes to them (log entry 7). -/
inductive Operand where
  | pos (p : Word)
  | imm (v : Word)
  | rel (o : Word)
  | push
  | pop
  deriving DecidableEq, Repr

/-- The three addressing modes a mode digit selects (30_encoding.md R62). -/
inductive Mode where
  | pos
  | imm
  | rel
  deriving DecidableEq, Repr

/-- The ten opcodes of 30_encoding.md R60. -/
inductive Opcode where
  | add | mul | inp | out | jit | jif | lt | eq | arb | hlt
  deriving DecidableEq, Repr

/-- Why a word, or a fetch, spells no instruction (30_encoding.md R67 to R73). -/
inductive DecodeCause where
  | fetchOob
  | unknownOpcode
  | badMode
  | truncated
  deriving DecidableEq, Repr

/-- The instructions, one constructor per row of spec/opcode_table.json; operands in parameter order
(30_encoding.md R60). `invalid` is the table's row for a word that spells no instruction (47_halt_invalid.md R119). -/
inductive Instr where
  | add (s1 s2 d : Operand)
  | mul (s1 s2 d : Operand)
  | inp (d : Operand)
  | out (s1 : Operand)
  | jit (c t : Operand)
  | jif (c t : Operand)
  | lt (s1 s2 d : Operand)
  | eq (s1 s2 d : Operand)
  | arb (s1 : Operand)
  | hlt
  | invalid (cause : DecodeCause)
  deriving DecidableEq, Repr

end Sys2Proof
end

