-- ==== Sys2Proof/WellFormed.lean ====
section
/-! DEFINITION. Which terms of Instr are instructions that a word can spell (spec/30_encoding.md R63, R75). -/

namespace Sys2Proof

/-- An operand a mode digit can select: not one of the reserved placeholders (30_encoding.md R63). -/
def Operand.wf : Operand → Bool
  | .pos _ => true
  | .imm _ => true
  | .rel _ => true
  | .push => false
  | .pop => false

/-- A well-formed instruction: one of the ten, every operand selectable by a mode digit. Any of the three modes may
stand in any place, a destination too (30_encoding.md R65, R85). `invalid` is a marker, not an instruction (R66). -/
def Instr.wf : Instr → Bool
  | .add s1 s2 d => s1.wf && s2.wf && d.wf
  | .mul s1 s2 d => s1.wf && s2.wf && d.wf
  | .inp d => d.wf
  | .out s1 => s1.wf
  | .jit c t => c.wf && t.wf
  | .jif c t => c.wf && t.wf
  | .lt s1 s2 d => s1.wf && s2.wf && d.wf
  | .eq s1 s2 d => s1.wf && s2.wf && d.wf
  | .arb s1 => s1.wf
  | .hlt => true
  | .invalid _ => false

end Sys2Proof
end

