-- ==== Sys2Proof/Decode.lean ====
section
/-! DEFINITION. The decoder of spec/30_encoding.md R56 to R75, total on any cells, and after it the encoder of R78,
both over the opcode map (R60), the operand counts (R66) and the mode map (R62). -/

namespace Sys2Proof

/-- The ten opcodes, in the order of the map (30_encoding.md R60). -/
def Opcode.all : List Opcode := [.add, .mul, .inp, .out, .jit, .jif, .lt, .eq, .arb, .hlt]

/-- The opcode map (30_encoding.md R60). PRESUMED (log entry 8): the numbers 2 and 5 to 9 are the spec's general
knowledge, not its source's (R61). -/
def Opcode.number : Opcode → Nat
  | .add => 1
  | .mul => 2
  | .inp => 3
  | .out => 4
  | .jit => 5
  | .jif => 6
  | .lt => 7
  | .eq => 8
  | .arb => 9
  | .hlt => 99

/-- The opcode with a number, if there is one (30_encoding.md R68). -/
def Opcode.ofNumber (n : Nat) : Option Opcode := Opcode.all.find? fun o => o.number == n

/-- NPARAMS (30_encoding.md R66). -/
def Opcode.nparams : Opcode → Nat
  | .add => 3
  | .mul => 3
  | .inp => 1
  | .out => 1
  | .jit => 2
  | .jif => 2
  | .lt => 3
  | .eq => 3
  | .arb => 1
  | .hlt => 0

/-- The width in cells of a valid instruction, by its opcode alone (30_encoding.md R66). -/
def Opcode.width (o : Opcode) : Nat := 1 + o.nparams

/-- The digit that selects a mode (30_encoding.md R62). PRESUMED (log entry 9): 2 for Rel is general knowledge. -/
def Mode.digit : Mode → Nat
  | .pos => 0
  | .imm => 1
  | .rel => 2

/-- The mode a digit selects; the digits 3 to 9 select none (30_encoding.md R62, R69). -/
def Mode.ofDigit (n : Nat) : Option Mode := [Mode.pos, Mode.imm, Mode.rel].find? fun m => m.digit == n

/-- The operand of a mode and a parameter cell, the payload taken as it stands (30_encoding.md R64). -/
def Mode.tag : Mode → Word → Operand
  | .pos, p => .pos p
  | .imm, p => .imm p
  | .rel, p => .rel p

/-- `digit(w, k)`: the k-th decimal digit from the units (00_scope.md R8). -/
def digit (w k : Nat) : Nat := w / 10 ^ k % 10

/-- The modes of the parameters i, i+1, …, i+n−1 of a word: that of parameter i is `digit(w, i+1)`
(30_encoding.md R58); none if one of these digits selects no mode (R69). -/
def modesFrom (w i : Nat) : Nat → Option (List Mode)
  | 0 => some []
  | n + 1 =>
    match Mode.ofDigit (digit w (i + 1)), modesFrom w (i + 1) n with
    | some m, some ms => some (m :: ms)
    | _, _ => none

/-- The first `n` parameter cells; none if one of them lies outside memory (30_encoding.md R73). -/
def takeParams : Nat → List (Option Word) → Option (List Word)
  | 0, _ => some []
  | n + 1, some p :: rest => (takeParams n rest).map (p :: ·)
  | _ + 1, none :: _ => none
  | _ + 1, [] => none

/-- The instruction of an opcode and its operands in parameter order (30_encoding.md R60); none unless the operands
are as many as the opcode has. -/
def Opcode.build : Opcode → List Operand → Option Instr
  | .add, [s1, s2, d] => some (.add s1 s2 d)
  | .mul, [s1, s2, d] => some (.mul s1 s2 d)
  | .inp, [d] => some (.inp d)
  | .out, [s1] => some (.out s1)
  | .jit, [c, t] => some (.jit c t)
  | .jif, [c, t] => some (.jif c t)
  | .lt, [s1, s2, d] => some (.lt s1 s2 d)
  | .eq, [s1, s2, d] => some (.eq s1 s2 d)
  | .arb, [s1] => some (.arb s1)
  | .hlt, [] => some .hlt
  | _, _ => none

/-- The decoder: its inputs are the cell at pc and the three cells after it, `none` for a cell outside memory
(00_scope.md R12). The checks stand in the order of 30_encoding.md R71, R72. The last `none` is never reached: the
operands are as many as the opcode has. -/
def decode (strict : Bool) (w p1 p2 p3 : Option Word) : Instr :=
  match w with
  | none => .invalid .fetchOob
  | some w =>
    if w.toInt < 0 then .invalid .unknownOpcode
    else
      match Opcode.ofNumber (w.toNat % 100) with
      | none => .invalid .unknownOpcode
      | some op =>
        match modesFrom w.toNat 1 op.nparams with
        | none => .invalid .badMode
        | some ms =>
          if strict && w.toNat / 10 ^ (op.nparams + 2) != 0 then .invalid .badMode
          else
            match takeParams op.nparams [p1, p2, p3] with
            | none => .invalid .truncated
            | some ps => (op.build (List.zipWith Mode.tag ms ps)).getD (.invalid .truncated)

/-- The decoder on a list of cells, the word first. -/
def decodeCells (strict : Bool) (cells : List Word) : Instr :=
  decode strict cells[0]? cells[1]? cells[2]? cells[3]?

/-- The opcode of an instruction; `invalid` has none. -/
def Instr.opcode : Instr → Option Opcode
  | .add _ _ _ => some .add
  | .mul _ _ _ => some .mul
  | .inp _ => some .inp
  | .out _ => some .out
  | .jit _ _ => some .jit
  | .jif _ _ => some .jif
  | .lt _ _ _ => some .lt
  | .eq _ _ _ => some .eq
  | .arb _ => some .arb
  | .hlt => some .hlt
  | .invalid _ => none

/-- The operands in parameter order (30_encoding.md R60). -/
def Instr.operands : Instr → List Operand
  | .add s1 s2 d => [s1, s2, d]
  | .mul s1 s2 d => [s1, s2, d]
  | .inp d => [d]
  | .out s1 => [s1]
  | .jit c t => [c, t]
  | .jif c t => [c, t]
  | .lt s1 s2 d => [s1, s2, d]
  | .eq s1 s2 d => [s1, s2, d]
  | .arb s1 => [s1]
  | .hlt => []
  | .invalid _ => []

/-- The width in cells: 1 to 4 for an instruction, 0 for Invalid (30_encoding.md R66). -/
def Instr.width (i : Instr) : Nat :=
  match i.opcode with
  | some o => o.width
  | none => 0

/-- The mode digit of an operand; the reserved placeholders have none (30_encoding.md R63). -/
def Operand.modeDigit : Operand → Option Nat
  | .pos _ => some Mode.pos.digit
  | .imm _ => some Mode.imm.digit
  | .rel _ => some Mode.rel.digit
  | .push => none
  | .pop => none

/-- The parameter cell of an operand; the reserved placeholders have none. -/
def Operand.payload : Operand → Option Word
  | .pos p => some p
  | .imm v => some v
  | .rel o => some o
  | .push => none
  | .pop => none

/-- The decimal value of mode digits laid from a place on: `m1·place + m2·10·place + …`; none if an operand has no
mode digit (30_encoding.md R56, R78). -/
def modeSum (place : Nat) : List Operand → Option Nat
  | [] => some 0
  | o :: rest =>
    match o.modeDigit, modeSum (10 * place) rest with
    | some m, some r => some (m * place + r)
    | _, _ => none

/-- The parameter cells of operands; none if one has no payload. -/
def payloads : List Operand → Option (List Word)
  | [] => some []
  | o :: rest =>
    match o.payload, payloads rest with
    | some p, some ps => some (p :: ps)
    | _, _ => none

/-- The canonical encoding `[OP + 100·m1 + 1000·m2 + 10000·m3, p1, …, pn]` (30_encoding.md R78): some cells exactly
for a well-formed instruction. -/
def encode (i : Instr) : Option (List Word) :=
  match i.opcode, modeSum 100 i.operands, payloads i.operands with
  | some o, some m, some ps => some (BitVec.ofNat 64 (o.number + m) :: ps)
  | _, _, _ => none

/-- Cell `k` of an instruction given as the number `w` of its `nbits` low bits, every bit above them 0: cell 0 in the
bits 63..0, cell 1 in the bits 127..64, and so on (log entry 22). -/
def tableCell (nbits w k : Nat) : Word := BitVec.ofNat 64 (w % 2 ^ nbits / 2 ^ (64 * k))

/-- The instruction the decoder reads from the table's number `w`, at this hardware's STRICT_DECODE. The decoder is
total (30_encoding.md R71): a word that spells no instruction gives the table's row Invalid with its cause
(log entry 21). -/
def decodeTableWord (nbits w : Nat) : Option Instr :=
  some (decode Config.hw.strictDecode (some (tableCell nbits w 0)) (some (tableCell nbits w 1))
    (some (tableCell nbits w 2)) (some (tableCell nbits w 3)))

end Sys2Proof
end

