-- ==== Sys2Proof/Machine/State.lean ====
section
/-! DEFINITION. The state of one instance as plain data: the architectural tuple (M, pc, rb, Q, status) of
spec/10_state.md R15, and beside it the instance's parameters and its two host-facing ports, the last step's outcome
and the trace. -/

namespace Sys2Proof.Machine

/-- One listed cell of memory: its address and its 64-bit value. The cell is the smallest addressable unit and there
is no byte view (20_memory.md R33; log entry 1). -/
abbrev Cell := Nat × Word

/-- The memory image (10_state.md R21), as the list of its cells that do not hold what an unlisted cell reads as, in
rising order of address (`Memory.wf` of Machine/Ops.lean). -/
abbrev Memory := List Cell

/-- `status.state` (10_state.md R24). -/
inductive RunState where
  | run
  | waitInput
  | halted
  | faulted
  deriving DecidableEq, Repr

/-- `status.cause`: none, or a fault cause of 60_exceptions.md R121. -/
inductive Cause where
  | none
  | dfFetchOob
  | dfUnknownOpcode
  | dfBadMode
  | dfTruncated
  | afReadOob
  | afWriteOob
  | afWriteImm
  | efOverflow
  | efReservedOperand
  deriving DecidableEq, Repr

/-- The status register (10_state.md R24). `info` is an exact integer, which may lie outside i64 (60_exceptions.md
R125). -/
structure Status where
  state : RunState
  cause : Cause
  info : Option Int
  faultPc : Word
  deriving DecidableEq, Repr

/-- The outcome a step ends with (40_execution_cycle.md R88). -/
inductive StepOutcome where
  | cont
  | output (v : Word)
  | needInput
  | halted
  | fault (cause : Cause) (info : Option Int)
  deriving DecidableEq, Repr

/-- An event of the trace port, with the absolute address touched (60_exceptions.md R134). -/
inductive TraceEvent where
  | fetch (a : Int)
  | read (a : Int)
  | write (a : Int)
  deriving DecidableEq, Repr

/-- The state of one instance. `mem`, `pc`, `rb`, `queue`, `status` are the architectural state (10_state.md R15).
The other three are no architectural state: `cfg` is fixed for the instance (00_scope.md R6; log entry 2), `outcome` is
the outcome the last step returned, none before the first (40_execution_cycle.md R88; log entry 5), and `trace` is what
the trace port has emitted so far, oldest first (60_exceptions.md R134; log entry 6). -/
structure State where
  cfg : Config
  mem : Memory
  pc : Word
  rb : Word
  queue : List Word
  status : Status
  outcome : Option StepOutcome
  trace : List TraceEvent
  deriving DecidableEq, Repr

/-- A host-level error. No instruction and no step raises one: a fault of the spec is a recorded state of the machine
(60_exceptions.md R120; log entry 4). -/
inductive Fault where
  /-- Raised by the host entry point `map` alone, when the program needs input and none is left: a violation of the
  host's contract past which the spec claims nothing (40_execution_cycle.md R94). Safe. -/
  | inputUnderflow
  deriving DecidableEq, Repr

/-- Why the model gives no next state. -/
inductive Refusal where
  /-- Raised by an arm of `exec` whose instruction has no meaning yet: no arm is left so. Safe. -/
  | notModelled (mnemonic : String)
  /-- Raised by the host entry point `load` alone: the image is longer than MEM_SIZE cells, and no instance is made
  (70_reset_and_hazards.md R141). Safe. -/
  | programTooLong
  deriving DecidableEq, Repr

/-- The status after construction (10_state.md R24, R29). -/
def Status.reset : Status := { state := .run, cause := .none, info := none, faultPc := 0 }

/-- The instance right after construction with an empty program image and no pre-supplied input: every cell 0, pc = 0,
rb = 0, Q empty, status (RUN, 0, none, 0) (10_state.md R29; 70_reset_and_hazards.md R140, R142). PRESUMED (log entry
11): rb = 0 is the spec's general knowledge. DESIGN CHOICE (log entries 2, 5, 6): this hardware's parameters, no
outcome yet, nothing traced. -/
def State.reset : State :=
  { cfg := Config.hw, mem := [], pc := 0, rb := 0, queue := [], status := Status.reset, outcome := none, trace := [] }

end Sys2Proof.Machine
end

