-- ==== Sys2Proof/Machine/Ops.lean ====
section
/-! DEFINITION. The named operations over memory and state: cells, the range check, the fetch port, the trace port,
the program counter, taking a fault, and the staged execution and commit of a step (spec/20_memory.md,
spec/40_execution_cycle.md R87, spec/60_exceptions.md). -/

namespace Sys2Proof.Machine

/-- What a cell that is not listed reads as: every cell past the program image is 0 (70_reset_and_hazards.md R142). -/
def Memory.unlisted : Word := 0

/-- `M[a]` (20_memory.md R38). -/
def Memory.read : Memory → Nat → Word
  | [], _ => Memory.unlisted
  | c :: rest, a => if c.1 = a then c.2 else Memory.read rest a

/-- The memory with cell `a` no longer listed. -/
def Memory.erase : Memory → Nat → Memory
  | [], _ => []
  | c :: rest, a => if c.1 = a then Memory.erase rest a else c :: Memory.erase rest a

/-- The memory with one more listed cell, at its place in the order of addresses. -/
def Memory.insert : Memory → Nat → Word → Memory
  | [], a, v => [(a, v)]
  | c :: rest, a, v => if a < c.1 then (a, v) :: c :: rest else c :: Memory.insert rest a v

/-- `M[a] <- v`, every other cell unchanged (20_memory.md R39). Writing what an unlisted cell reads as takes the cell
off the list. -/
def Memory.write (m : Memory) (a : Nat) (v : Word) : Memory :=
  if v = Memory.unlisted then m.erase a else (m.erase a).insert a v

/-- The canonical form: addresses strictly rising, no cell listed that holds what an unlisted one reads as. -/
abbrev Memory.wf (m : Memory) : Prop :=
  m.Pairwise (fun c e => c.1 < e.1) ∧ ∀ c ∈ m, c.2 ≠ Memory.unlisted

/-- The memory that holds a list of cells from an address on (70_reset_and_hazards.md R140). -/
def Memory.ofCells : Nat → List Word → Memory
  | _, [] => []
  | a, v :: rest => if v = Memory.unlisted then Memory.ofCells (a + 1) rest else (a, v) :: Memory.ofCells (a + 1) rest

/-- Address `a` is in range: 0 ≤ a < MEM_SIZE (20_memory.md R37). -/
abbrev State.InRange (s : State) (a : Int) : Prop := 0 ≤ a ∧ a < (s.cfg.memSize : Int)

/-- The fetch port: a cell, or `none` outside memory (20_memory.md R44). It changes nothing. -/
def State.fetchCell (s : State) (a : Int) : Option Word :=
  if s.InRange a then some (s.mem.read a.toNat) else none

/-- `Decode(a)` (30_encoding.md R71): the decoder on the cells at `a` to `a + 3` as the fetch port gives them. -/
def State.decodeAt (s : State) (a : Int) : Instr :=
  decode s.cfg.strictDecode (s.fetchCell a) (s.fetchCell (a + 1)) (s.fetchCell (a + 2)) (s.fetchCell (a + 3))

/-- `trace E` (60_exceptions.md R134). -/
def State.emit (s : State) (e : TraceEvent) : State := { s with trace := s.trace ++ [e] }

/-- `pc <- pc + width` (10_state.md R18). The sum is exact for every legal MEM_SIZE (log entry 3). -/
def State.advance (s : State) (width : Nat) : State := { s with pc := wrap64 (s.pc.toInt + width) }

/-- `pc <- t` (44_jumps.md R113): any target is taken; one outside memory faults at the next fetch (10_state.md R19). -/
def State.jump (s : State) (t : Word) : State := { s with pc := t }

/-- Cell `a` set to `v`, for an address in range (20_memory.md R39). -/
def State.setCell (s : State) (a : Int) (v : Word) : State := { s with mem := s.mem.write a.toNat v }

/-- `rb <- v` (46_relbase.md R117). -/
def State.setRb (s : State) (v : Word) : State := { s with rb := v }

/-- The queue set to what is left after `pop(Q)` (43_io.md R111). -/
def State.setQueue (s : State) (q : List Word) : State := { s with queue := q }

/-- The end of a step that raises no fault: the run state and the outcome; the recorded cause, info and fault_pc stand
as they are (40_execution_cycle.md R87; 10_state.md R24). -/
def State.finish (s : State) (r : RunState) (o : StepOutcome) : State :=
  { s with status := { s.status with state := r }, outcome := some o }

/-- Taking a fault: the status records FAULTED, the cause, the info and the pc of the faulting instruction, and the
outcome is `Fault(cause, info)`; M, pc, rb and Q stay as they are (60_exceptions.md R120, R124). There is no handler, so
there is no return from a fault (R129, R130). -/
def State.takeFault (s : State) (cause : Cause) (info : Option Int) : State :=
  { s with status := { state := .faulted, cause := cause, info := info, faultPc := s.pc },
           outcome := some (.fault cause info) }

/-- The fault cause of a decode fault (60_exceptions.md R121). -/
def decodeFaultCause : DecodeCause → Cause
  | .fetchOob => .dfFetchOob
  | .unknownOpcode => .dfUnknownOpcode
  | .badMode => .dfBadMode
  | .truncated => .dfTruncated

/-- What `Execute` returns when no fault is raised (40_execution_cycle.md R87). -/
inductive Signal where
  | cont
  | output (v : Word)
  | needInput
  | halted
  deriving DecidableEq, Repr

/-- A piece of execution on the staging state: a value with the staging state it leaves, or a raised fault with the
staging state at the raise, of which only the emitted trace events outlive the step (40_execution_cycle.md R87;
60_exceptions.md R135). -/
inductive Staged (α : Type) where
  | ok (v : α) (t : State)
  | raised (cause : Cause) (info : Option Int) (t : State)
  deriving DecidableEq, Repr

/-- One piece of staged execution after another; a raised fault ends it. -/
def Staged.bind {α β : Type} (x : Staged α) (f : α → State → Staged β) : Staged β :=
  match x with
  | .ok v t => f v t
  | .raised cause info t => .raised cause info t

/-- The commit of a step from `s` (40_execution_cycle.md R87): on `cont` and `output` the staging state becomes the
state; on `needInput`, `halted` and a fault nothing of it does but the trace events emitted. -/
def commit (s : State) (x : Staged Signal) : Host.Outcome State Fault Refusal :=
  match x with
  | .ok .cont t => .next (t.finish .run .cont)
  | .ok (.output v) t => .next (t.finish .run (.output v))
  | .ok .needInput t => .next (State.finish { s with trace := t.trace } .waitInput .needInput)
  | .ok .halted t => .next (State.finish { s with trace := t.trace } .halted .halted)
  | .raised cause info t => .next (State.takeFault { s with trace := t.trace } cause info)

end Sys2Proof.Machine
end

