-- ==== Sys2Proof/Machine/Alu.lean ====
section
/-! DEFINITION. The arithmetic functions of the ALU (spec/41_alu.md R101, R102, R106). -/

namespace Sys2Proof.Machine

/-- An exact integer result brought back into i64: itself where it lies in i64; else, by ARITH_OVERFLOW, wrapped, or
the fault EF_OVERFLOW (41_alu.md R106). -/
def narrow (exact : Int) (t : State) : Staged Word :=
  if InI64 exact then .ok (wrap64 exact) t
  else
    match t.cfg.arithOverflow with
    | .wrap => .ok (wrap64 exact) t
    | .fault => .raised .efOverflow none t

/-- `ALU_ADD` (41_alu.md R101). -/
def aluAdd (a b : Word) (t : State) : Staged Word := narrow (a.toInt + b.toInt) t

/-- `ALU_MUL` (41_alu.md R102). -/
def aluMul (a b : Word) (t : State) : Staged Word := narrow (a.toInt * b.toInt) t

end Sys2Proof.Machine
end

