-- ==== Sys2Proof/Machine/Operands.lean ====
section
/-! DEFINITION. The memory controller: the effective address of an operand, its value, and the store of a result to it
(spec/20_memory.md R36 to R42; spec/30_encoding.md R63). -/

namespace Sys2Proof.Machine

/-- What the effective-address unit gives (20_memory.md R36): an address, the marker IMMEDIATE with the literal it
marks, or, for the reserved placeholders, nothing (30_encoding.md R63). -/
inductive EffAddr where
  | addr (a : Int)
  | immediate (v : Word)
  | reserved
  deriving DecidableEq, Repr

/-- `EA(operand, rb)`: the sum `rb + o` is an exact integer, not wrapped (20_memory.md R36). -/
def effAddr (o : Operand) (rb : Word) : EffAddr :=
  match o with
  | .pos p => .addr p.toInt
  | .rel d => .addr (rb.toInt + d.toInt)
  | .imm v => .immediate v
  | .push => .reserved
  | .pop => .reserved

/-- `MemRead` behind the range check, with its trace event (20_memory.md R40). -/
def readCell (a : Int) (t : State) : Staged Word :=
  if t.InRange a then .ok (t.mem.read a.toNat) (t.emit (.read a)) else .raised .afReadOob (some a) t

/-- `MemWrite` behind the range check, with its trace event (20_memory.md R41). -/
def writeCell (a : Int) (v : Word) (t : State) : Staged Unit :=
  if t.InRange a then .ok () ((t.setCell a v).emit (.write a)) else .raised .afWriteOob (some a) t

/-- `Eval(operand)` (20_memory.md R40, R42). A reserved placeholder raises EF_RESERVED_OPERAND (30_encoding.md R63). -/
def eval (o : Operand) (t : State) : Staged Word :=
  match effAddr o t.rb with
  | .immediate v => .ok v t
  | .addr a => readCell a t
  | .reserved => .raised .efReservedOperand none t

/-- `Store(operand, v)` (20_memory.md R41): an immediate is no write target. A reserved placeholder raises
EF_RESERVED_OPERAND (30_encoding.md R63). -/
def store (o : Operand) (v : Word) (t : State) : Staged Unit :=
  match effAddr o t.rb with
  | .addr a => writeCell a v t
  | .immediate _ => .raised .afWriteImm none t
  | .reserved => .raised .efReservedOperand none t

end Sys2Proof.Machine
end

