-- ==== Sys2Proof/Machine/Arith.lean ====
section
/-! DEFINITION. The arithmetic instructions `add` and `mul` (spec/42_arith.md), and the shape they share with the
comparisons: two sources read in operand order, a result, a destination written last. -/

namespace Sys2Proof.Machine

/-- Source 1, source 2, the ALU, the destination, then pc + 4: the order of 20_memory.md R49, whose first fault is the
one reported (60_exceptions.md R127). -/
def binaryOp (alu : Word → Word → State → Staged Word) (s1 s2 d : Operand) (s : State) :
    Host.Outcome State Fault Refusal :=
  commit s <|
    (eval s1 s).bind fun a t1 =>
    (eval s2 t1).bind fun b t2 =>
    (alu a b t2).bind fun r t3 =>
    (store d r t3).bind fun _ t4 =>
    .ok .cont (t4.advance 4)

/-- `add s1, s2, d` (42_arith.md R109). -/
def execAdd (s1 s2 d : Operand) (s : State) : Host.Outcome State Fault Refusal := binaryOp aluAdd s1 s2 d s

/-- `mul s1, s2, d` (42_arith.md R110). -/
def execMul (s1 s2 d : Operand) (s : State) : Host.Outcome State Fault Refusal := binaryOp aluMul s1 s2 d s

end Sys2Proof.Machine
end

