-- ==== Sys2Proof/Machine/Flags.lean ====
section
/-! DEFINITION. The machine has no flags (spec/10_state.md R26): a comparison gives a cell value, and a jump tests a
value. These are the functions that stand in a flag unit's place (spec/41_alu.md R103 to R105). -/

namespace Sys2Proof.Machine

/-- `ALU_LT`: signed less-than, 1 or 0 (41_alu.md R103). PRESUMED (log entry 10): the values 1 and 0. -/
def aluLt (a b : Word) : Word := if a.toInt < b.toInt then 1 else 0

/-- `ALU_EQ`: equality, 1 or 0 (41_alu.md R104). PRESUMED (log entry 10): the values 1 and 0. -/
def aluEq (a b : Word) : Word := if a = b then 1 else 0

/-- `TEST`: nonzero is true (41_alu.md R105). -/
def aluTest (a : Word) : Bool := a != 0

end Sys2Proof.Machine
end

