-- ==== Sys2Proof/Machine/Compare.lean ====
section
/-! DEFINITION. The comparisons `lt` and `eq` (spec/45_compare.md): the result goes to memory, and no comparison
overflows. -/

namespace Sys2Proof.Machine

/-- `lt s1, s2, d` (45_compare.md R115). -/
def execLt (s1 s2 d : Operand) (s : State) : Host.Outcome State Fault Refusal :=
  binaryOp (fun a b t => .ok (aluLt a b) t) s1 s2 d s

/-- `eq s1, s2, d` (45_compare.md R116). -/
def execEq (s1 s2 d : Operand) (s : State) : Host.Outcome State Fault Refusal :=
  binaryOp (fun a b t => .ok (aluEq a b) t) s1 s2 d s

end Sys2Proof.Machine
end

