-- ==== Sys2Proof/Machine/Halt.lean ====
section
/-! DEFINITION. Halt and the Invalid decode result (spec/47_halt_invalid.md). -/

namespace Sys2Proof.Machine

/-- `hlt` (47_halt_invalid.md R118): pc stays at the instruction. -/
def execHlt (s : State) : Host.Outcome State Fault Refusal := commit s (.ok .halted s)

/-- Invalid (47_halt_invalid.md R119): the decode fault of its cause, with info = pc. -/
def execInvalid (cause : DecodeCause) (s : State) : Host.Outcome State Fault Refusal :=
  commit s (.raised (decodeFaultCause cause) (some s.pc.toInt) s)

end Sys2Proof.Machine
end

