-- ==== Sys2Proof/Machine/InputOutput.lean ====
section
/-! DEFINITION. The instructions `in` and `out` (spec/43_io.md). -/

namespace Sys2Proof.Machine

/-- `in d` (43_io.md R111): with Q empty the step suspends and the destination is not examined; the value leaves Q only
when the store has succeeded. -/
def execIn (d : Operand) (s : State) : Host.Outcome State Fault Refusal :=
  commit s <|
    match s.queue with
    | [] => .ok .needInput s
    | v :: rest => (store d v s).bind fun _ t => .ok .cont ((t.setQueue rest).advance 2)

/-- `out s` (43_io.md R112): the value leaves in the step's outcome, after pc + 2 (40_execution_cycle.md R99). -/
def execOut (s1 : Operand) (s : State) : Host.Outcome State Fault Refusal :=
  commit s <| (eval s1 s).bind fun v t => .ok (.output v) (t.advance 2)

end Sys2Proof.Machine
end

