-- ==== Sys2Proof/Machine/Jumps.lean ====
section
/-! DEFINITION. The conditional jumps `jit` and `jif` (spec/44_jumps.md). -/

namespace Sys2Proof.Machine

/-- The condition is evaluated, then the target: only when the jump is taken (JUMP_TARGET_EVAL = lazy), or before the
test in every case (eager) (44_jumps.md R113, decision D38). -/
def condJump (takes : Word → Bool) (c t : Operand) (s : State) : Host.Outcome State Fault Refusal :=
  commit s <|
    (eval c s).bind fun x s1 =>
    match s1.cfg.jumpTargetEval with
    | .lazy =>
      if takes x then (eval t s1).bind fun v s2 => .ok .cont (s2.jump v) else .ok .cont (s1.advance 3)
    | .eager =>
      (eval t s1).bind fun v s2 => .ok .cont (if takes x then s2.jump v else s2.advance 3)

/-- `jit c, t`: jump if true (44_jumps.md R113). -/
def execJit (c t : Operand) (s : State) : Host.Outcome State Fault Refusal := condJump aluTest c t s

/-- `jif c, t`: jump if false (44_jumps.md R114). -/
def execJif (c t : Operand) (s : State) : Host.Outcome State Fault Refusal :=
  condJump (fun x => !aluTest x) c t s

end Sys2Proof.Machine
end

