-- ==== Sys2Proof/Machine/RelBase.lean ====
section
/-! DEFINITION. The instruction `arb` (spec/46_relbase.md). -/

namespace Sys2Proof.Machine

/-- `arb s` (46_relbase.md R117): the operand is evaluated with the old rb, and rb becomes `ALU_ADD(rb, v)`. -/
def execArb (s1 : Operand) (s : State) : Host.Outcome State Fault Refusal :=
  commit s <|
    (eval s1 s).bind fun v t1 =>
    (aluAdd t1.rb v t1).bind fun r t2 =>
    .ok .cont ((t2.setRb r).advance 2)

end Sys2Proof.Machine
end

