-- ==== Sys2Proof/Machine/Dispatch.lean ====
section
/-! DEFINITION. `Execute` and the commit of one decoded instruction (spec/40_execution_cycle.md R87), one arm per
constructor of Instr. What a step does around it stands in Step.lean. -/

namespace Sys2Proof.Machine

def exec (i : Instr) (s : State) : Host.Outcome State Fault Refusal :=
  match i with
  | .add s1 s2 d => Sys2Proof.Machine.execAdd s1 s2 d s
  | .mul s1 s2 d => Sys2Proof.Machine.execMul s1 s2 d s
  | .inp d => Sys2Proof.Machine.execIn d s
  | .out s1 => Sys2Proof.Machine.execOut s1 s
  | .jit c t => Sys2Proof.Machine.execJit c t s
  | .jif c t => Sys2Proof.Machine.execJif c t s
  | .lt s1 s2 d => Sys2Proof.Machine.execLt s1 s2 d s
  | .eq s1 s2 d => Sys2Proof.Machine.execEq s1 s2 d s
  | .arb s1 => Sys2Proof.Machine.execArb s1 s
  | .hlt => Sys2Proof.Machine.execHlt s
  | .invalid cause => Sys2Proof.Machine.execInvalid cause s

end Sys2Proof.Machine
end

