-- ==== Sys2Proof/Machine/Terminal.lean ====
section
/-! DEFINITION. What a step does before an instruction is executed: the terminal states, and the fetch
(spec/40_execution_cycle.md R87, R89); and how the cells of one instruction are placed where the next fetch reads
them. -/

namespace Sys2Proof.Machine

/-- A step from HALTED or FAULTED: nothing changes, the same outcome is returned again, no event is emitted
(40_execution_cycle.md R89); `none` from RUN and WAIT_INPUT, where a step fetches (R90). -/
def State.terminalStep (s : State) : Option State :=
  match s.status.state with
  | .halted => some { s with outcome := some .halted }
  | .faulted => some { s with outcome := some (.fault s.status.cause s.status.info) }
  | .run => none
  | .waitInput => none

/-- The fetch of a step: the instruction at pc, and the staging state with the event Fetch(pc), which stands before the
decode (20_memory.md R44; 60_exceptions.md R134). -/
def State.fetch (s : State) : Instr × State := (s.decodeAt s.pc.toInt, s.emit (.fetch s.pc.toInt))

/-- The state ready to fetch: a terminal status is the one after construction again, and a pc with no room for the
longest instruction is 0; a state that fetches as it stands is left alone (log entry 20). -/
def State.readyToFetch (s : State) : State :=
  { s with status := if s.status.state = .halted ∨ s.status.state = .faulted then Status.reset else s.status,
           pc := if s.InRange s.pc.toInt ∧ s.InRange (s.pc.toInt + 3) then s.pc else 0 }

/-- The cells of the table's number `w` stored at an address and the three after it (log entry 22). -/
def State.placeTableWord (s : State) (a : Int) (nbits w : Nat) : State :=
  (((s.setCell a (tableCell nbits w 0)).setCell (a + 1) (tableCell nbits w 1)).setCell (a + 2)
    (tableCell nbits w 2)).setCell (a + 3) (tableCell nbits w 3)

end Sys2Proof.Machine
end

