-- ==== Sys2Proof/Machine/Step.lean ====
section
/-! DEFINITION. One step of the machine (spec/40_execution_cycle.md R86, R87), and how the host places one instruction
where the next step fetches it. -/

namespace Sys2Proof.Machine

/-- `Step(S)` (40_execution_cycle.md R87). -/
def step (s : State) : Host.Outcome State Fault Refusal :=
  match s.terminalStep with
  | some t => .next t
  | none => exec s.fetch.1 s.fetch.2

/-- The state whose next step fetches and runs the instruction of the table's number `w`: it stands for the load of a
program from outside (log entries 17, 20). -/
def State.withFetchWord (s : State) (nbits w : Nat) : State :=
  s.readyToFetch.placeTableWord s.readyToFetch.pc.toInt nbits w

end Sys2Proof.Machine
end

