-- ==== Sys2Proof/Machine/Assembly.lean ====
section
/-! DEFINITION. The assembler's spelling of instructions (spec/30_encoding.md R76, R77) and the idioms of R79, which are
real instructions. -/

namespace Sys2Proof

/-- The mnemonic (30_encoding.md R60, R80). -/
def Instr.mnemonic : Instr → String
  | .add _ _ _ => "add"
  | .mul _ _ _ => "mul"
  | .inp _ => "in"
  | .out _ => "out"
  | .jit _ _ => "jit"
  | .jif _ _ => "jif"
  | .lt _ _ _ => "lt"
  | .eq _ _ _ => "eq"
  | .arb _ => "arb"
  | .hlt => "hlt"
  | .invalid _ => "invalid"

/-- The name in the term form (30_encoding.md R76). -/
def Instr.termName : Instr → String
  | .add _ _ _ => "Add"
  | .mul _ _ _ => "Mul"
  | .inp _ => "In"
  | .out _ => "Out"
  | .jit _ _ => "Jit"
  | .jif _ _ => "Jif"
  | .lt _ _ _ => "Lt"
  | .eq _ _ _ => "Eq"
  | .arb _ => "Arb"
  | .hlt => "Halt"
  | .invalid _ => "Invalid"

/-- The operand syntax, with a decimal i64 literal (30_encoding.md R77). -/
def Operand.asm : Operand → String
  | .pos p => "Pos(" ++ toString p.toInt ++ ")"
  | .imm v => "Imm(" ++ toString v.toInt ++ ")"
  | .rel o => "Rel(" ++ toString o.toInt ++ ")"
  | .push => "Push"
  | .pop => "Pop"

/-- `mnemonic op1, op2, op3` (30_encoding.md R76). -/
def Instr.asm (i : Instr) : String :=
  match i.operands with
  | [] => i.mnemonic
  | ops => i.mnemonic ++ " " ++ String.intercalate ", " (ops.map Operand.asm)

/-- The term form, such as `Jit(Imm(1), Rel(0))` (30_encoding.md R76). -/
def Instr.term (i : Instr) : String :=
  match i.operands with
  | [] => i.termName
  | ops => i.termName ++ "(" ++ String.intercalate ", " (ops.map Operand.asm) ++ ")"

/-- Unconditional jump to `t` (30_encoding.md R79). -/
def Instr.jumpAlways (t : Operand) : Instr := .jit (.imm 1) t

/-- Unconditional jump to `t`, the other spelling (30_encoding.md R79). -/
def Instr.jumpAlwaysIf (t : Operand) : Instr := .jif (.imm 0) t

/-- Move `x` to `d` (30_encoding.md R79). -/
def Instr.move (x d : Operand) : Instr := .add x (.imm 0) d

/-- Negate `x` into `d` (30_encoding.md R79). -/
def Instr.negate (x d : Operand) : Instr := .mul x (.imm (-1)) d

/-- Logical not of `x` into `d` (30_encoding.md R79). -/
def Instr.logicalNot (x d : Operand) : Instr := .eq x (.imm 0) d

/-- No-op of width 3 (30_encoding.md R79). -/
def Instr.nop : Instr := .jit (.imm 0) (.imm 0)

/-- Return through the stack top (30_encoding.md R79). -/
def Instr.returnThroughTop : Instr := .jit (.imm 1) (.rel 0)

end Sys2Proof
end

