-- ==== Sys2Proof/Machine/Codes.lean ====
section
/-! DEFINITION. The numbers the host reads in place of names: run states, outcomes, fault causes and their classes
(spec/10_state.md R24; spec/40_execution_cycle.md R88, R95; spec/60_exceptions.md R121). No behaviour depends on them. -/

namespace Sys2Proof.Machine

/-- The code of a run state (10_state.md R24). -/
def RunState.code : RunState → Nat
  | .run => 0
  | .waitInput => 1
  | .halted => 2
  | .faulted => 3

/-- The code of a fault cause; 0 is none (60_exceptions.md R121; 10_state.md R24). -/
def Cause.code : Cause → Nat
  | .none => 0
  | .dfFetchOob => 0x10
  | .dfUnknownOpcode => 0x11
  | .dfBadMode => 0x12
  | .dfTruncated => 0x13
  | .afReadOob => 0x20
  | .afWriteOob => 0x21
  | .afWriteImm => 0x22
  | .efOverflow => 0x30
  | .efReservedOperand => 0x31

/-- The three classes of fault (60_exceptions.md R121). -/
inductive FaultClass where
  | decode
  | address
  | execution
  deriving DecidableEq, Repr

/-- The class of a cause (60_exceptions.md R121). -/
def Cause.faultClass : Cause → Option FaultClass
  | .none => .none
  | .dfFetchOob => some .decode
  | .dfUnknownOpcode => some .decode
  | .dfBadMode => some .decode
  | .dfTruncated => some .decode
  | .afReadOob => some .address
  | .afWriteOob => some .address
  | .afWriteImm => some .address
  | .efOverflow => some .execution
  | .efReservedOperand => some .execution

/-- The code of an outcome (40_execution_cycle.md R88). -/
def StepOutcome.code : StepOutcome → Nat
  | .cont => 0
  | .output _ => 1
  | .needInput => 2
  | .halted => 3
  | .fault _ _ => 4

/-- `can_continue` (40_execution_cycle.md R95). -/
def StepOutcome.canContinue : StepOutcome → Bool
  | .cont => true
  | .output _ => true
  | .needInput => false
  | .halted => false
  | .fault _ _ => false

end Sys2Proof.Machine
end

