-- ==== Sys2Proof/Machine/HostEntry.lean ====
section
/-! DEFINITION. The host's entry points (spec/00_scope.md R11; spec/40_execution_cycle.md R91 to R97; spec/70_reset_and_hazards.md
R139 to R145): construction and load, input, step-once, the resumable run, map, peek, clone, and what an observer of
the trace can tell. The block has no step limit (R97): the bound `fuel` is the executor's (log entry 18). -/

namespace Sys2Proof.Machine

/-- Construction of an instance from a program image and the pre-supplied inputs (70_reset_and_hazards.md R139, R140); an
image longer than MEM_SIZE is refused (R141). -/
def load (cfg : Config) (image inputs : List Word) : Host.Outcome State Fault Refusal :=
  if image.length ≤ cfg.memSize then
    .next { State.reset with cfg := cfg, mem := Memory.ofCells 0 image, queue := inputs }
  else .refused .programTooLong

/-- The host appends values at the back of Q, between steps (40_execution_cycle.md R92, R98). -/
def State.appendInputs (s : State) (xs : List Word) : State := { s with queue := s.queue ++ xs }

/-- `peek(a)`: the decoded instruction at an address; it changes nothing and traces nothing (10_state.md R31). -/
def peek (s : State) (a : Int) : Instr := s.decodeAt a

/-- Cloning: two instances, each with its own copy of everything (10_state.md R30). -/
def clone (s : State) : State × State := (s, s)

/-- `step`: the outcome of one step with `can_continue` (40_execution_cycle.md R95). -/
def stepOnce (s : State) : Host.Outcome (State × Option StepOutcome × Bool) Fault Refusal :=
  match step s with
  | .next t => .next (t, t.outcome, (t.outcome.map StepOutcome.canContinue).getD false)
  | .fault r => .fault r
  | .refused r => .refused r

/-- Steps until the first outcome that is not Continue, which is answered beside the state; no outcome where `fuel`
steps did not reach one (40_execution_cycle.md R91). -/
def runLoop : Nat → State → Host.Outcome (State × Option StepOutcome) Fault Refusal
  | 0, s => .next (s, none)
  | fuel + 1, s =>
    match step s with
    | .next t => if t.outcome = some .cont then runLoop fuel t else .next (t, t.outcome)
    | .fault r => .fault r
    | .refused r => .refused r

/-- `run(S, v?)`: zero or one new input value joins the back of Q, then the loop (40_execution_cycle.md R91, R92). -/
def run (fuel : Nat) (v : Option Word) (s : State) : Host.Outcome (State × Option StepOutcome) Fault Refusal :=
  runLoop fuel (s.appendInputs v.toList)

/-- Run after run until a terminal outcome, with the outputs in emission order; each value of `pending` is appended
after a NeedInput outcome, and a NeedInput with none left is the host error of 40_execution_cycle.md R94. `fuel` bounds
the steps of all runs together. -/
def drive : Nat → List Word → State → List Word →
    Host.Outcome (State × List Word × Option StepOutcome) Fault Refusal
  | 0, _, s, outs => .next (s, outs, none)
  | fuel + 1, pending, s, outs =>
    match step s with
    | .next t =>
      match t.outcome with
      | some (.output v) => drive fuel pending t (outs ++ [v])
      | some .needInput =>
        match pending with
        | [] => .fault .inputUnderflow
        | v :: rest => drive fuel rest (t.appendInputs [v]) outs
      | some .halted => .next (t, outs, some .halted)
      | some (.fault cause info) => .next (t, outs, some (.fault cause info))
      | some .cont => drive fuel pending t outs
      | none => drive fuel pending t outs
    | .fault r => .fault r
    | .refused r => .refused r

/-- `map(S, xs)`: all inputs appended before the first run (40_execution_cycle.md R93); a fault comes back with the
outputs so far (decision D33). -/
def map (fuel : Nat) (xs : List Word) (s : State) :
    Host.Outcome (State × List Word × Option StepOutcome) Fault Refusal :=
  drive fuel [] (s.appendInputs xs) []

/-- The same inputs supplied one at a time, each by `run` after a NeedInput (40_execution_cycle.md R100). -/
def feedOnDemand (fuel : Nat) (xs : List Word) (s : State) :
    Host.Outcome (State × List Word × Option StepOutcome) Fault Refusal :=
  drive fuel xs s []

/-- What an observer of the trace can tell before a step: the instruction about to be fetched at `p` covers a cell for
which an event Write(a) with p ≤ a < p + width stands in the trace. Advisory: execution does not depend on it
(60_exceptions.md R137). -/
def selfModifyingFetch (s : State) : Bool :=
  s.trace.any fun e =>
    match e with
    | .write a => decide (s.pc.toInt ≤ a ∧ a < s.pc.toInt + (s.decodeAt s.pc.toInt).width)
    | .read _ => false
    | .fetch _ => false

end Sys2Proof.Machine
end

