-- ==== Sys2Proof/Safety.lean ====
section
/-! DEFINITION. The terms claims are stated in: what an operand reads and where it is stored to, what a completed or
faulted step leaves, the invariant of the machine, and when two states agree for the program. -/

namespace Sys2Proof.Machine

/-- A step from this state fetches: the machine is neither halted nor faulted (40_execution_cycle.md R87, R90). -/
abbrev State.Live (s : State) : Prop := s.status.state = .run ∨ s.status.state = .waitInput

/-- The operand can be read in `s` and its value is `v` (20_memory.md R40). -/
def ReadsAs (s : State) (o : Operand) (v : Word) : Prop :=
  match effAddr o s.rb with
  | .immediate x => v = x
  | .addr a => s.InRange a ∧ v = s.mem.read a.toNat
  | .reserved => False

/-- The operand names the address `a`, and `a` is outside memory (20_memory.md R37). -/
def OutOfRange (s : State) (o : Operand) (a : Int) : Prop := effAddr o s.rb = .addr a ∧ ¬ s.InRange a

/-- The destination names the cell `a` of memory (20_memory.md R41). -/
def WritesTo (s : State) (d : Operand) (a : Int) : Prop := effAddr d s.rb = .addr a ∧ s.InRange a

/-- One of the two reserved placeholders, which no word decodes to (30_encoding.md R63). -/
abbrev Reserved (o : Operand) : Prop := o = .push ∨ o = .pop

/-- The trace events of evaluating a readable operand: one Read, or none for an immediate (60_exceptions.md R134). -/
def readEvents (s : State) (o : Operand) : List TraceEvent :=
  match effAddr o s.rb with
  | .addr a => [.read a]
  | .immediate _ => []
  | .reserved => []

/-- `t` is what a completed instruction without a store leaves: the new pc, rb and queue, the run state RUN, the
outcome, the events; everything else as in `s`. -/
def afterPlain (s : State) (pc rb : Word) (queue : List Word) (o : StepOutcome) (events : List TraceEvent) : State :=
  { s with pc := pc, rb := rb, queue := queue, status := { s.status with state := .run }, outcome := some o,
           trace := s.trace ++ events }

/-- What a faulting step leaves: the record in the status, the outcome, the events before the fault; everything else as
in `s` (60_exceptions.md R124). -/
def afterFault (s : State) (cause : Cause) (info : Option Int) (events : List TraceEvent) : State :=
  { s with status := { state := .faulted, cause := cause, info := info, faultPc := s.pc },
           outcome := some (.fault cause info), trace := s.trace ++ events }

/-- `t` is what a completed instruction with a store leaves: cell `a` holds `v`, every other cell reads as before, pc
moved on by the width, the queue as given, rb and the parameters as before, the run state RUN with the record of the
status as before, the outcome Continue, the events. -/
structure StoresCell (s t : State) (a : Int) (v : Word) (width : Nat) (queue : List Word)
    (events : List TraceEvent) : Prop where
  stored : t.mem.read a.toNat = v
  others : ∀ x : Nat, (x : Int) ≠ a → t.mem.read x = s.mem.read x
  pc : t.pc = wrap64 (s.pc.toInt + width)
  rb : t.rb = s.rb
  queue : t.queue = queue
  cfg : t.cfg = s.cfg
  status : t.status = { s.status with state := .run }
  outcome : t.outcome = some .cont
  trace : t.trace = s.trace ++ events

/-- The encoding of an opcode with three parameters (30_encoding.md R59, format W4): the word `CBA` above its number,
with any mode for each parameter. -/
def EncodedW4 (number : Nat) (mk : Operand → Operand → Operand → Instr) : Prop :=
  ∀ (strict : Bool) (a b c : Mode) (p1 p2 p3 : Word),
    decode strict (some (BitVec.ofNat 64 (number + 100 * a.digit + 1000 * b.digit + 10000 * c.digit)))
      (some p1) (some p2) (some p3) = mk (a.tag p1) (b.tag p2) (c.tag p3)

/-- The encoding of an opcode with two parameters (30_encoding.md R59, format W3). -/
def EncodedW3 (number : Nat) (mk : Operand → Operand → Instr) : Prop :=
  ∀ (strict : Bool) (a b : Mode) (p1 p2 : Word) (p3 : Option Word),
    decode strict (some (BitVec.ofNat 64 (number + 100 * a.digit + 1000 * b.digit))) (some p1) (some p2) p3 =
      mk (a.tag p1) (b.tag p2)

/-- The encoding of an opcode with one parameter (30_encoding.md R59, format W2). -/
def EncodedW2 (number : Nat) (mk : Operand → Instr) : Prop :=
  ∀ (strict : Bool) (a : Mode) (p1 : Word) (p2 p3 : Option Word),
    decode strict (some (BitVec.ofNat 64 (number + 100 * a.digit))) (some p1) p2 p3 = mk (a.tag p1)

/-- What the rules of `add`, `mul`, `lt` and `eq` say (42_arith.md, 45_compare.md): the operands read, the result and
where it goes when nothing traps, and each fault with what it takes to be the first met (60_exceptions.md R127). -/
def BinaryRule (mk : Operand → Operand → Operand → Instr) (result : Word → Word → Word)
    (overflows : State → Word → Word → Prop) : Prop :=
  ∀ (s : State) (s1 s2 d : Operand),
    (∀ a b n, ReadsAs s s1 a → ReadsAs s s2 b → ¬ overflows s a b → WritesTo s d n →
      ∃ t, exec (mk s1 s2 d) s = .next t ∧
        StoresCell s t n (result a b) 4 s.queue (readEvents s s1 ++ readEvents s s2 ++ [.write n])) ∧
    (∀ n, OutOfRange s s1 n → exec (mk s1 s2 d) s = .next (afterFault s .afReadOob (some n) [])) ∧
    (∀ a n, ReadsAs s s1 a → OutOfRange s s2 n →
      exec (mk s1 s2 d) s = .next (afterFault s .afReadOob (some n) (readEvents s s1))) ∧
    (∀ a b v, ReadsAs s s1 a → ReadsAs s s2 b → ¬ overflows s a b → d = .imm v →
      exec (mk s1 s2 d) s = .next (afterFault s .afWriteImm none (readEvents s s1 ++ readEvents s s2))) ∧
    (∀ a b n, ReadsAs s s1 a → ReadsAs s s2 b → ¬ overflows s a b → OutOfRange s d n →
      exec (mk s1 s2 d) s = .next (afterFault s .afWriteOob (some n) (readEvents s s1 ++ readEvents s s2))) ∧
    (Reserved s1 → exec (mk s1 s2 d) s = .next (afterFault s .efReservedOperand none [])) ∧
    (∀ a, ReadsAs s s1 a → Reserved s2 →
      exec (mk s1 s2 d) s = .next (afterFault s .efReservedOperand none (readEvents s s1))) ∧
    (∀ a b, ReadsAs s s1 a → ReadsAs s s2 b → ¬ overflows s a b → Reserved d →
      exec (mk s1 s2 d) s =
        .next (afterFault s .efReservedOperand none (readEvents s s1 ++ readEvents s s2)))

/-- What the rules of `add` and `mul` say of a result that traps: the fault, before the destination is looked at
(42_arith.md R109, R110; 60_exceptions.md R127). -/
def OverflowTraps (mk : Operand → Operand → Operand → Instr) (overflows : State → Word → Word → Prop) : Prop :=
  ∀ (s : State) (s1 s2 d : Operand) (a b : Word), ReadsAs s s1 a → ReadsAs s s2 b → overflows s a b →
    exec (mk s1 s2 d) s = .next (afterFault s .efOverflow none (readEvents s s1 ++ readEvents s s2))

/-- What the rules of `jit` and `jif` say (44_jumps.md): taken on the condition values `takes` holds of. -/
def JumpRule (mk : Operand → Operand → Instr) (takes : Word → Prop) : Prop :=
  ∀ (s : State) (c t : Operand),
    (∀ x v, ReadsAs s c x → takes x → ReadsAs s t v →
      exec (mk c t) s = .next (afterPlain s v s.rb s.queue .cont (readEvents s c ++ readEvents s t))) ∧
    (∀ x, ReadsAs s c x → ¬ takes x → s.cfg.jumpTargetEval = .lazy →
      exec (mk c t) s = .next (afterPlain s (wrap64 (s.pc.toInt + 3)) s.rb s.queue .cont (readEvents s c))) ∧
    (∀ x v, ReadsAs s c x → ¬ takes x → s.cfg.jumpTargetEval = .eager → ReadsAs s t v →
      exec (mk c t) s =
        .next (afterPlain s (wrap64 (s.pc.toInt + 3)) s.rb s.queue .cont (readEvents s c ++ readEvents s t))) ∧
    (∀ n, OutOfRange s c n → exec (mk c t) s = .next (afterFault s .afReadOob (some n) [])) ∧
    (∀ x n, ReadsAs s c x → takes x ∨ s.cfg.jumpTargetEval = .eager → OutOfRange s t n →
      exec (mk c t) s = .next (afterFault s .afReadOob (some n) (readEvents s c))) ∧
    (Reserved c → exec (mk c t) s = .next (afterFault s .efReservedOperand none [])) ∧
    (∀ x, ReadsAs s c x → takes x ∨ s.cfg.jumpTargetEval = .eager → Reserved t →
      exec (mk c t) s = .next (afterFault s .efReservedOperand none (readEvents s c)))

/-- The instruction is a jump that is taken in `s`, with the target operand `t` (44_jumps.md R113, R114). -/
def TakenJump (s : State) (i : Instr) (t : Operand) : Prop :=
  ∃ c x, ReadsAs s c x ∧ (i = .jit c t ∧ x ≠ 0 ∨ i = .jif c t ∧ x = 0)

/-- The exact result of an `add`, `mul` or `arb` leaves i64 in `s` (41_alu.md R106). -/
def Overflows (s : State) (i : Instr) : Prop :=
  (∃ s1 s2 d a b, i = .add s1 s2 d ∧ ReadsAs s s1 a ∧ ReadsAs s s2 b ∧ ¬ InI64 (a.toInt + b.toInt)) ∨
  (∃ s1 s2 d a b, i = .mul s1 s2 d ∧ ReadsAs s s1 a ∧ ReadsAs s s2 b ∧ ¬ InI64 (a.toInt * b.toInt)) ∨
  ∃ o v, i = .arb o ∧ ReadsAs s o v ∧ ¬ InI64 (s.rb.toInt + v.toInt)

/-- The outcome port agrees with the run state (40_execution_cycle.md R88). -/
def OutcomeMatches (s : State) : Prop :=
  match s.status.state with
  | .run => s.outcome = none ∨ s.outcome = some .cont ∨ ∃ v, s.outcome = some (.output v)
  | .waitInput => s.outcome = some .needInput
  | .halted => s.outcome = some .halted
  | .faulted => s.outcome = some (.fault s.status.cause s.status.info)

/-- The invariant of the machine: legal parameters; memory in canonical form and within MEM_SIZE (10_state.md R21); the
fault record clear until FAULTED and set there (10_state.md R24), with fault_pc the unchanged pc (60_exceptions.md R124);
pc at the pending `in` while suspended (10_state.md R28) and at the `hlt` once halted (47_halt_invalid.md R118); the
outcome port in step with the run state; every traced access in range (60_exceptions.md R134). -/
structure State.Inv (s : State) : Prop where
  legal : s.cfg.Legal
  memCanonical : s.mem.wf
  memBounded : ∀ c ∈ s.mem, c.1 < s.cfg.memSize
  recordClear : s.status.state ≠ .faulted →
    s.status.cause = .none ∧ s.status.info = none ∧ s.status.faultPc = 0
  recordSet : s.status.state = .faulted → s.status.cause ≠ .none ∧ s.status.faultPc = s.pc
  suspendedAtIn : s.status.state = .waitInput → ∃ d, s.decodeAt s.pc.toInt = .inp d
  haltedAtHlt : s.status.state = .halted → s.decodeAt s.pc.toInt = .hlt
  outcomeMatches : OutcomeMatches s
  tracedInRange : ∀ a, .read a ∈ s.trace ∨ .write a ∈ s.trace → s.InRange a

/-- Two states agree on everything but the trace and the outcome port: the program and the host's later steps cannot
tell them apart (60_exceptions.md R136). -/
def SameMachine (s t : State) : Prop :=
  s.cfg = t.cfg ∧ s.mem = t.mem ∧ s.pc = t.pc ∧ s.rb = t.rb ∧ s.queue = t.queue ∧ s.status = t.status

/-- Two runs ended alike: the same memory, pc, rb and status, the same parameters (40_execution_cycle.md R100). -/
def SameEnd (s t : State) : Prop :=
  s.cfg = t.cfg ∧ s.mem = t.mem ∧ s.pc = t.pc ∧ s.rb = t.rb ∧ s.status = t.status

/-- `k` steps of the machine. -/
def stepTimes : Nat → State → Host.Outcome State Fault Refusal
  | 0, s => .next s
  | k + 1, s =>
    match step s with
    | .next t => stepTimes k t
    | .fault r => .fault r
    | .refused r => .refused r

/-- The values output by the first `k` steps from a state, in emission order (40_execution_cycle.md R93). -/
def emittedBy : Nat → State → List Word
  | 0, _ => []
  | k + 1, s =>
    match step s with
    | .next t =>
      match t.outcome with
      | some (.output v) => v :: emittedBy k t
      | some .cont => emittedBy k t
      | some .needInput => emittedBy k t
      | some .halted => emittedBy k t
      | some (.fault _ _) => emittedBy k t
      | none => emittedBy k t
    | .fault _ => []
    | .refused _ => []

end Sys2Proof.Machine
end

