-- ==== Sys2Proof/Certificates/Slice0/Obligations.lean ====
section
/-! DEFINITION. The statements for the provers, from the numbered rules of spec/. -/

open Sys2Proof Sys2Proof.Machine

/-! ### The decoder and the encoder -/

/-- The decode examples of 30_encoding.md R81, R82 and R83, each word and its parameters written out (the opcode numbers
2, 5 and 9 are log entry 8, the digit of Rel log entry 9). -/
def Obligations.DecodesTheExampleWords : Prop :=
  decodeCells false [1101, 100, -1, 4] = .add (.imm 100) (.imm (-1)) (.pos 4) ∧
  decodeCells false [2105, 1, 0] = .jit (.imm 1) (.rel 0) ∧
  (∀ p1 p2 p3 : Word,
    decodeCells false [1002, p1, p2, p3] = .mul (.pos p1) (.imm p2) (.pos p3) ∧
    decodeCells false [21101, p1, p2, p3] = .add (.imm p1) (.imm p2) (.rel p3) ∧
    decodeCells false [203, p1] = .inp (.rel p1) ∧
    decodeCells false [104, p1] = .out (.imm p1) ∧
    decodeCells false [109, p1] = .arb (.imm p1) ∧
    decodeCells false [99] = .hlt ∧
    decodeCells false [0, p1, p2, p3] = .invalid .unknownOpcode ∧
    decodeCells false [100, p1, p2, p3] = .invalid .unknownOpcode ∧
    decodeCells false [98, p1, p2, p3] = .invalid .unknownOpcode ∧
    decodeCells false [-1, p1, p2, p3] = .invalid .unknownOpcode ∧
    decodeCells false [301, p1, p2, p3] = .invalid .badMode ∧
    decodeCells false [30001, p1, p2, p3] = .invalid .badMode)

/-- The decoder at an address, check by check in the order of 30_encoding.md R71 and R72: a fetch out of range, a
negative word (R67), an unknown opcode (R68), a bad mode digit (R69) or a strict high digit, a truncated instruction
(R73), and else the opcode's instruction with each parameter cell under the mode of its digit (the opcode numbers are log
entry 8, the digit of Rel log entry 9). -/
def Obligations.DecoderChecksInOrder : Prop :=
  ∀ (s : State) (a : Int),
    (¬ (0 ≤ a ∧ a < s.cfg.memSize) → s.decodeAt a = .invalid .fetchOob) ∧
    (0 ≤ a → a < s.cfg.memSize → ∀ w : Word, w = s.mem.read a.toNat →
      (w.toInt < 0 → s.decodeAt a = .invalid .unknownOpcode) ∧
      (0 ≤ w.toInt → w.toNat % 100 ∉ [1, 2, 3, 4, 5, 6, 7, 8, 9, 99] → s.decodeAt a = .invalid .unknownOpcode) ∧
      (0 ≤ w.toInt → ∀ op : Opcode, op.number = w.toNat % 100 →
        ((∃ k, 1 ≤ k ∧ k ≤ op.nparams ∧ 3 ≤ digit w.toNat (k + 1)) ∨
            (s.cfg.strictDecode = true ∧ w.toNat / 10 ^ (op.nparams + 2) ≠ 0) →
          s.decodeAt a = .invalid .badMode) ∧
        ((∀ k, 1 ≤ k → k ≤ op.nparams → digit w.toNat (k + 1) < 3) →
            (s.cfg.strictDecode = true → w.toNat / 10 ^ (op.nparams + 2) = 0) →
          (s.cfg.memSize ≤ a + op.nparams → s.decodeAt a = .invalid .truncated) ∧
          (a + op.nparams < s.cfg.memSize →
            (s.decodeAt a).opcode = some op ∧ (s.decodeAt a).operands.length = op.nparams ∧
            (s.decodeAt a).width = op.nparams + 1 ∧
            ∀ k, k < op.nparams → ∃ m : Mode, m.digit = digit w.toNat (k + 2) ∧
              (s.decodeAt a).operands[k]? = some (m.tag (s.mem.read (a + k + 1).toNat))))))

/-- Decoding the canonical encoding gives back the instruction, for every well-formed instruction, under both settings
of STRICT_DECODE and whatever cells follow (30_encoding.md R78; the numbers are log entries 8 and 9). -/
def Obligations.DecodeOfEncodeIsTheInstruction : Prop :=
  ∀ (i : Instr) (strict : Bool) (rest : List Word), i.wf = true →
    ∃ cells, encode i = some cells ∧ cells.length = i.width ∧ decodeCells strict (cells ++ rest) = i

/-- Encoding a decoded canonical word, one whose digits above the used modes are zero, gives back its cells
(30_encoding.md R78; the numbers are log entries 8 and 9). -/
def Obligations.EncodeOfCanonicalWordIsItsCells : Prop :=
  ∀ (w p1 p2 p3 : Word) (i : Instr), decode true (some w) (some p1) (some p2) (some p3) = i → i.wf = true →
    encode i = some (w :: [p1, p2, p3].take (i.width - 1))

/-- Digits above the mode digits an instruction uses: ignored when STRICT_DECODE is false, so 199 and 20099 are hlt and
11104 is `out Imm(P1)`; a bad mode when it is true (30_encoding.md R70). -/
def Obligations.HighDigitsIgnoredUnlessStrict : Prop :=
  (∀ (w w' : Word) (p1 p2 p3 : Option Word) (op : Opcode), 0 ≤ w.toInt → 0 ≤ w'.toInt →
    op.number = w.toNat % 100 → w.toNat % 10 ^ (op.nparams + 2) = w'.toNat % 10 ^ (op.nparams + 2) →
    decode false (some w) p1 p2 p3 = decode false (some w') p1 p2 p3) ∧
  (∀ (w : Word) (p1 p2 p3 : Option Word) (op : Opcode), 0 ≤ w.toInt →
    op.number = w.toNat % 100 → w.toNat / 10 ^ (op.nparams + 2) ≠ 0 →
    decode true (some w) p1 p2 p3 = .invalid .badMode) ∧
  (∀ p1 p2 p3 : Option Word, decode false (some 199) p1 p2 p3 = .hlt ∧ decode false (some 20099) p1 p2 p3 = .hlt) ∧
  (∀ (p : Word) (p2 p3 : Option Word), decode false (some 11104) (some p) p2 p3 = .out (.imm p))

/-- The decoder yields a well-formed instruction or Invalid, never `Push` or `Pop`; evaluating or storing through
either raises EF_RESERVED_OPERAND (30_encoding.md R63). -/
def Obligations.DecoderNeverYieldsReservedOperands : Prop :=
  (∀ (strict : Bool) (w p1 p2 p3 : Option Word),
    (decode strict w p1 p2 p3).wf = true ∨ ∃ c, decode strict w p1 p2 p3 = .invalid c) ∧
  (∀ (o : Operand) (s : State) (v : Word), Reserved o →
    eval o s = .raised .efReservedOperand none s ∧ store o v s = .raised .efReservedOperand none s)

/-- A decoded instruction depends on no cell but its own: any state with the same parameters and the same cells from
the word to the last parameter decodes to it (30_encoding.md R74, R84). -/
def Obligations.DecodeReadsOnlyItsOwnCells : Prop :=
  ∀ (s t : State) (a : Int), t.cfg = s.cfg → (s.decodeAt a).wf = true →
    (∀ k : Nat, k < (s.decodeAt a).width → t.mem.read (a + k).toNat = s.mem.read (a + k).toNat) →
    t.decodeAt a = s.decodeAt a

/-! ### The memory controller -/

/-- The effective address, and `Eval`, of each implemented mode: the literal of an immediate, whatever it is, with no
read; the cell at `p`, or at the exact sum `rb + o`, with its Read event, when the address is in [0, MEM_SIZE); else
AF_READ_OOB with the exact address (20_memory.md R36, R40, R42). -/
def Obligations.EvalReadsByMode : Prop :=
  ∀ s : State,
    (∀ x : Word, effAddr (.pos x) s.rb = .addr x.toInt ∧ effAddr (.rel x) s.rb = .addr (s.rb.toInt + x.toInt) ∧
      effAddr (.imm x) s.rb = .immediate x) ∧
    (∀ v, eval (.imm v) s = .ok v s) ∧
    (∀ p : Word, 0 ≤ p.toInt ∧ p.toInt < s.cfg.memSize →
      eval (.pos p) s = .ok (s.mem.read p.toInt.toNat) (s.emit (.read p.toInt))) ∧
    (∀ p : Word, ¬ (0 ≤ p.toInt ∧ p.toInt < s.cfg.memSize) →
      eval (.pos p) s = .raised .afReadOob (some p.toInt) s) ∧
    (∀ o : Word, 0 ≤ s.rb.toInt + o.toInt ∧ s.rb.toInt + o.toInt < s.cfg.memSize →
      eval (.rel o) s = .ok (s.mem.read (s.rb.toInt + o.toInt).toNat) (s.emit (.read (s.rb.toInt + o.toInt)))) ∧
    (∀ o : Word, ¬ (0 ≤ s.rb.toInt + o.toInt ∧ s.rb.toInt + o.toInt < s.cfg.memSize) →
      eval (.rel o) s = .raised .afReadOob (some (s.rb.toInt + o.toInt)) s)

/-- `Store` through an address in range writes that one cell, emits Write, and changes nothing else; through an address
out of range, or an immediate, it faults and writes nothing (20_memory.md R39, R41). -/
def Obligations.StoreWritesOneCell : Prop :=
  ∀ (s : State) (v : Word),
    (∀ x, store (.imm x) v s = .raised .afWriteImm none s) ∧
    (∀ (d : Operand) (a : Int), (∃ p : Word, d = .pos p ∧ a = p.toInt) ∨ (∃ o : Word, d = .rel o ∧ a = s.rb.toInt + o.toInt) →
      (¬ (0 ≤ a ∧ a < s.cfg.memSize) → store d v s = .raised .afWriteOob (some a) s) ∧
      (0 ≤ a ∧ a < s.cfg.memSize → ∃ m, store d v s = .ok () { s with mem := m, trace := s.trace ++ [.write a] } ∧
        m.read a.toNat = v ∧ ∀ x : Nat, (x : Int) ≠ a → m.read x = s.mem.read x))

/-- Memories in canonical form that read alike at every address are one and the same data. -/
def Obligations.CanonicalMemoriesThatReadAlikeAreEqual : Prop :=
  ∀ m n : Memory, m.wf → n.wf → (∀ a, m.read a = n.read a) → m = n

/-! ### The ALU -/

/-- `wrap64(v)` is the one i64 value congruent to `v` modulo 2^64 (00_scope.md R8). -/
def Obligations.WrapIsTheCongruentValue : Prop :=
  ∀ v : Int, InI64 (wrap64 v).toInt ∧ ((wrap64 v).toInt - v) % 2 ^ 64 = 0 ∧
    ∀ x : Int, InI64 x → (x - v) % 2 ^ 64 = 0 → x = (wrap64 v).toInt

/-- ALU_ADD and ALU_MUL: the exact result where it lies in i64; else by ARITH_OVERFLOW the wrapped result, or EF_OVERFLOW
(41_alu.md R101, R102, R106). -/
def Obligations.AluNarrowsExactResults : Prop :=
  ∀ (a b : Word) (t : State),
    (InI64 (a.toInt + b.toInt) → ∃ r, aluAdd a b t = .ok r t ∧ r.toInt = a.toInt + b.toInt) ∧
    (¬ InI64 (a.toInt + b.toInt) → t.cfg.arithOverflow = .wrap → aluAdd a b t = .ok (wrap64 (a.toInt + b.toInt)) t) ∧
    (¬ InI64 (a.toInt + b.toInt) → t.cfg.arithOverflow = .fault → aluAdd a b t = .raised .efOverflow none t) ∧
    (InI64 (a.toInt * b.toInt) → ∃ r, aluMul a b t = .ok r t ∧ r.toInt = a.toInt * b.toInt) ∧
    (¬ InI64 (a.toInt * b.toInt) → t.cfg.arithOverflow = .wrap → aluMul a b t = .ok (wrap64 (a.toInt * b.toInt)) t) ∧
    (¬ InI64 (a.toInt * b.toInt) → t.cfg.arithOverflow = .fault → aluMul a b t = .raised .efOverflow none t)

/-- ALU_LT and ALU_EQ give 1 or 0 by the signed order and by equality of the values; TEST is "not zero"
(41_alu.md R103, R104, R105; the values 1 and 0 are log entry 10). -/
def Obligations.AluComparesSignedValues : Prop :=
  ∀ a b : Word,
    (a.toInt < b.toInt → (aluLt a b).toInt = 1) ∧ (b.toInt ≤ a.toInt → (aluLt a b).toInt = 0) ∧
    (a.toInt = b.toInt → (aluEq a b).toInt = 1) ∧ (a.toInt ≠ b.toInt → (aluEq a b).toInt = 0) ∧
    (aluTest a = true ↔ a.toInt ≠ 0)

/-! ### The instructions -/

/-- `add s1, s2, d` (42_arith.md R109; the digit of Rel is log entry 9). -/
def Obligations.AddStoresTheSum : Prop :=
  EncodedW4 1 .add ∧
  BinaryRule .add (fun a b => wrap64 (a.toInt + b.toInt))
    (fun s a b => s.cfg.arithOverflow = .fault ∧ ¬ InI64 (a.toInt + b.toInt)) ∧
  OverflowTraps .add (fun s a b => s.cfg.arithOverflow = .fault ∧ ¬ InI64 (a.toInt + b.toInt))

/-- `mul s1, s2, d` (42_arith.md R110; the opcode number is log entry 8, the digit of Rel log entry 9). -/
def Obligations.MulStoresTheProduct : Prop :=
  EncodedW4 2 .mul ∧
  BinaryRule .mul (fun a b => wrap64 (a.toInt * b.toInt))
    (fun s a b => s.cfg.arithOverflow = .fault ∧ ¬ InI64 (a.toInt * b.toInt)) ∧
  OverflowTraps .mul (fun s a b => s.cfg.arithOverflow = .fault ∧ ¬ InI64 (a.toInt * b.toInt))

/-- `in d` (43_io.md R111): suspension with Q empty, in every mode of `d`; else the head of Q is stored and removed; a
fault leaves Q as it is (the digit of Rel is log entry 9). -/
def Obligations.InTakesTheHeadOfTheQueue : Prop :=
  EncodedW2 3 .inp ∧
  ∀ (s : State) (d : Operand),
    (s.queue = [] → exec (.inp d) s =
      .next { s with status := { s.status with state := .waitInput }, outcome := some .needInput }) ∧
    (∀ v rest, s.queue = v :: rest →
      (∀ n, WritesTo s d n → ∃ t, exec (.inp d) s = .next t ∧ StoresCell s t n v 2 rest [.write n]) ∧
      (∀ x, d = .imm x → exec (.inp d) s = .next (afterFault s .afWriteImm none [])) ∧
      (∀ n, OutOfRange s d n → exec (.inp d) s = .next (afterFault s .afWriteOob (some n) [])) ∧
      (Reserved d → exec (.inp d) s = .next (afterFault s .efReservedOperand none [])))

/-- `out s` (43_io.md R112): the value is the step's outcome, pc moves on by 2, nothing else changes (the digit of Rel is
log entry 9). -/
def Obligations.OutDeliversTheValue : Prop :=
  EncodedW2 4 .out ∧
  ∀ (s : State) (o : Operand),
    (∀ v, ReadsAs s o v → exec (.out o) s =
      .next (afterPlain s (wrap64 (s.pc.toInt + 2)) s.rb s.queue (.output v) (readEvents s o))) ∧
    (∀ n, OutOfRange s o n → exec (.out o) s = .next (afterFault s .afReadOob (some n) [])) ∧
    (Reserved o → exec (.out o) s = .next (afterFault s .efReservedOperand none []))

/-- `jit c, t` (44_jumps.md R113; the opcode number is log entry 8, the digit of Rel log entry 9). -/
def Obligations.JitJumpsOnNonzero : Prop := EncodedW3 5 .jit ∧ JumpRule .jit fun x => x.toInt ≠ 0

/-- `jif c, t` (44_jumps.md R114; the opcode number is log entry 8, the digit of Rel log entry 9). -/
def Obligations.JifJumpsOnZero : Prop := EncodedW3 6 .jif ∧ JumpRule .jif fun x => x.toInt = 0

/-- `lt s1, s2, d` (45_compare.md R115; the opcode number is log entry 8, the digit of Rel log entry 9, the values 1 and 0
log entry 10). -/
def Obligations.LtStoresTheSignedOrder : Prop :=
  EncodedW4 7 .lt ∧
  BinaryRule .lt (fun a b => if a.toInt < b.toInt then 1 else 0) (fun _ _ _ => False)

/-- `eq s1, s2, d` (45_compare.md R116; the opcode number is log entry 8, the digit of Rel log entry 9, the values 1 and 0
log entry 10). -/
def Obligations.EqStoresEquality : Prop :=
  EncodedW4 8 .eq ∧
  BinaryRule .eq (fun a b => if a.toInt = b.toInt then 1 else 0) (fun _ _ _ => False)

/-- `arb s` (46_relbase.md R117; the opcode number is log entry 8, the digit of Rel log entry 9): the operand is read with
the old rb. -/
def Obligations.ArbAddsToTheRelativeBase : Prop :=
  EncodedW2 9 .arb ∧
  ∀ (s : State) (o : Operand),
    (∀ v, ReadsAs s o v → InI64 (s.rb.toInt + v.toInt) ∨ s.cfg.arithOverflow = .wrap → exec (.arb o) s =
      .next (afterPlain s (wrap64 (s.pc.toInt + 2)) (wrap64 (s.rb.toInt + v.toInt)) s.queue .cont (readEvents s o))) ∧
    (∀ v, ReadsAs s o v → ¬ InI64 (s.rb.toInt + v.toInt) → s.cfg.arithOverflow = .fault →
      exec (.arb o) s = .next (afterFault s .efOverflow none (readEvents s o))) ∧
    (∀ n, OutOfRange s o n → exec (.arb o) s = .next (afterFault s .afReadOob (some n) [])) ∧
    (Reserved o → exec (.arb o) s = .next (afterFault s .efReservedOperand none []))

/-- `hlt` (47_halt_invalid.md R118): every word that ends in 99 is hlt under STRICT_DECODE = false; the instruction
halts the machine, pc stays, nothing but the run state and the outcome changes, and every later step returns Halted. -/
def Obligations.HltHaltsInPlace : Prop :=
  (∀ (w : Word) (p1 p2 p3 : Option Word), 0 ≤ w.toInt → w.toNat % 100 = 99 →
    decode false (some w) p1 p2 p3 = .hlt) ∧
  ∀ s : State, ∃ t, exec .hlt s = .next t ∧
    t = { s with status := { s.status with state := .halted }, outcome := some .halted } ∧
    ∀ k, stepTimes k t = .next t

/-- Invalid (47_halt_invalid.md R119): the decode fault of each cause, with info = fault_pc = pc, at `exec` and at a step
that decodes to it; M, pc, rb and Q unchanged. -/
def Obligations.InvalidFaultsInPlace : Prop :=
  ∀ (s : State) (c : DecodeCause) (k : Cause),
    (c, k) ∈ [(DecodeCause.fetchOob, Cause.dfFetchOob), (.unknownOpcode, .dfUnknownOpcode), (.badMode, .dfBadMode),
      (.truncated, .dfTruncated)] →
    exec (.invalid c) s = .next (afterFault s k (some s.pc.toInt) []) ∧
    (s.Live → s.decodeAt s.pc.toInt = .invalid c →
      step s = .next (afterFault s k (some s.pc.toInt) [.fetch s.pc.toInt]))

/-- The idioms of 30_encoding.md R79: the two unconditional jumps, return through the stack top, move, negate, logical
not (the values 1 and 0 are log entry 10), and the no-op. -/
def Obligations.IdiomsDoWhatTheyAreListedFor : Prop :=
  ∀ (s : State),
    (∀ t v, ReadsAs s t v → exec (.jumpAlways t) s = .next (afterPlain s v s.rb s.queue .cont (readEvents s t)) ∧
      exec (.jumpAlwaysIf t) s = .next (afterPlain s v s.rb s.queue .cont (readEvents s t))) ∧
    (s.InRange s.rb.toInt → exec .returnThroughTop s =
      .next (afterPlain s (s.mem.read s.rb.toInt.toNat) s.rb s.queue .cont [.read s.rb.toInt])) ∧
    (∀ x d v n, ReadsAs s x v → WritesTo s d n →
      (∃ t, exec (.move x d) s = .next t ∧ StoresCell s t n v 4 s.queue (readEvents s x ++ [.write n])) ∧
      (∃ t, exec (.logicalNot x d) s = .next t ∧
        StoresCell s t n (if v = 0 then 1 else 0) 4 s.queue (readEvents s x ++ [.write n])) ∧
      (s.cfg.arithOverflow = .wrap ∨ v.toInt ≠ -(2 ^ 63) → ∃ t, exec (.negate x d) s = .next t ∧
        StoresCell s t n (-v) 4 s.queue (readEvents s x ++ [.write n]))) ∧
    exec .nop s = .next (afterPlain s (wrap64 (s.pc.toInt + 3)) s.rb s.queue .cont [])

/-- A change of rb by `arb` shifts the address of every Rel operand, read or written, of later instructions by the value
added; the operand of the `arb` itself is read with the old rb (20_memory.md R43). -/
def Obligations.ArbShiftsLaterRelativeOperands : Prop :=
  ∀ (s : State) (o : Operand) (v : Word), ReadsAs s o v →
    InI64 (s.rb.toInt + v.toInt) ∨ s.cfg.arithOverflow = .wrap →
    ∃ t, exec (.arb o) s = .next t ∧ t.mem = s.mem ∧ t.cfg = s.cfg ∧ t.rb = wrap64 (s.rb.toInt + v.toInt) ∧
      ∀ k : Word, effAddr (.rel k) t.rb = .addr (t.rb.toInt + k.toInt) ∧
        (InI64 (s.rb.toInt + v.toInt) → t.rb.toInt + k.toInt = s.rb.toInt + v.toInt + k.toInt) ∧
        (∀ x, ReadsAs t (.rel k) x ↔
          (0 ≤ t.rb.toInt + k.toInt ∧ t.rb.toInt + k.toInt < s.cfg.memSize) ∧
          x = s.mem.read (t.rb.toInt + k.toInt).toNat) ∧
        (∀ a, WritesTo t (.rel k) a ↔ (0 ≤ a ∧ a < s.cfg.memSize) ∧ a = t.rb.toInt + k.toInt)

/-! ### The step -/

/-- A step from RUN or WAIT_INPUT emits Fetch(pc), decodes at pc and runs the decoded instruction
(40_execution_cycle.md R87). -/
def Obligations.StepRunsTheDecodedInstruction : Prop :=
  ∀ s : State, s.Live → step s = exec (s.decodeAt s.pc.toInt) (s.emit (.fetch s.pc.toInt))

/-- HALTED and FAULTED are absorbing: the same outcome again, no other change, no trace event
(40_execution_cycle.md R89). -/
def Obligations.TerminalStatesAbsorb : Prop :=
  ∀ s : State,
    (s.status.state = .halted → step s = .next { s with outcome := some .halted }) ∧
    (s.status.state = .faulted → step s = .next { s with outcome := some (.fault s.status.cause s.status.info) })

/-- Every step, from every state, answers a next state with exactly one outcome, with its code, its meaning and the run
state it leaves as the table of 40_execution_cycle.md R88 has them. -/
def Obligations.EveryStepAnswersOneOutcome : Prop :=
  ∀ s : State, ∃ t o, step s = .next t ∧ t.outcome = some o ∧
    match o with
    | .cont => o.code = 0 ∧ t.status.state = .run
    | .output v => o.code = 1 ∧ t.status.state = .run ∧ ∃ x, s.decodeAt s.pc.toInt = .out x ∧ ReadsAs s x v
    | .needInput => o.code = 2 ∧ t.status.state = .waitInput ∧ (∃ d, s.decodeAt s.pc.toInt = .inp d) ∧ s.queue = [] ∧
        t.mem = s.mem ∧ t.pc = s.pc ∧ t.rb = s.rb ∧ t.queue = s.queue
    | .halted => o.code = 3 ∧ t.status.state = .halted ∧
        (s.decodeAt s.pc.toInt = .hlt ∨ s.status.state = .halted)
    | .fault cause info => o.code = 4 ∧ t.status.state = .faulted ∧ t.status.cause = cause ∧ t.status.info = info

/-- `step` as the host calls it: the outcome of one step with `can_continue`, true for Continue and Output, false for
NeedInput, Halted and Fault (40_execution_cycle.md R95). -/
def Obligations.StepOnceTellsWhetherItCanContinue : Prop :=
  ∀ s : State, ∃ t o b, step s = .next t ∧ t.outcome = some o ∧ stepOnce s = .next (t, some o, b) ∧
    (b = true ↔ o = .cont ∨ ∃ v, o = .output v)

/-- A fetch at a pc outside memory faults with DF_FETCH_OOB and commits nothing (10_state.md R19): nothing wraps. -/
def Obligations.FetchOutsideMemoryFaults : Prop :=
  ∀ s : State, s.Live → ¬ (0 ≤ s.pc.toInt ∧ s.pc.toInt < s.cfg.memSize) →
    step s = .next (afterFault s .dfFetchOob (some s.pc.toInt) [.fetch s.pc.toInt])

/-- A faulting step commits no effect of its instruction: M, pc, rb and Q are unchanged, the record names the pc, and
the events already emitted stay (60_exceptions.md R124). -/
def Obligations.FaultsArePrecise : Prop :=
  ∀ s t : State, s.Live → step s = .next t → t.status.state = .faulted →
    t.mem = s.mem ∧ t.pc = s.pc ∧ t.rb = s.rb ∧ t.queue = s.queue ∧ t.cfg = s.cfg ∧ t.status.faultPc = s.pc ∧
    t.outcome = some (.fault t.status.cause t.status.info) ∧ ∃ events, t.trace = s.trace ++ .fetch s.pc.toInt :: events

/-- Which cause a step records, for which instructions and on what grounds, and what info says of it; a reserved operand
raises EF_RESERVED_OPERAND but never reaches a step (60_exceptions.md R121, with the codes and classes of its table; the
opcode numbers 2 and 5 to 9 are log entry 8, the digit of Rel, 2, beside which 3 and on select no mode, log entry 9). -/
def Obligations.FaultRecordMatchesItsCause : Prop :=
  (∀ s t : State, s.Live → step s = .next t → t.status.state = .faulted →
    match t.status.cause with
    | .dfFetchOob => ¬ s.InRange s.pc.toInt ∧ t.status.info = some s.pc.toInt
    | .dfUnknownOpcode => t.status.info = some s.pc.toInt ∧ s.InRange s.pc.toInt ∧
        ((s.mem.read s.pc.toInt.toNat).toInt < 0 ∨
          (s.mem.read s.pc.toInt.toNat).toNat % 100 ∉ [1, 2, 3, 4, 5, 6, 7, 8, 9, 99])
    | .dfBadMode => t.status.info = some s.pc.toInt ∧ s.InRange s.pc.toInt ∧
        ∃ op : Opcode, op.number = (s.mem.read s.pc.toInt.toNat).toNat % 100 ∧
          ((∃ k, 1 ≤ k ∧ k ≤ op.nparams ∧ 3 ≤ digit (s.mem.read s.pc.toInt.toNat).toNat (k + 1)) ∨
            s.cfg.strictDecode = true ∧ (s.mem.read s.pc.toInt.toNat).toNat / 10 ^ (op.nparams + 2) ≠ 0)
    | .dfTruncated => t.status.info = some s.pc.toInt ∧ s.InRange s.pc.toInt ∧
        ∃ op : Opcode, op.number = (s.mem.read s.pc.toInt.toNat).toNat % 100 ∧
          s.cfg.memSize ≤ s.pc.toInt + op.nparams
    | .afReadOob => ∃ o a, o ∈ (s.decodeAt s.pc.toInt).operands.take 2 ∧ OutOfRange s o a ∧ t.status.info = some a ∧
        (s.decodeAt s.pc.toInt).opcode ∈ [some .add, some .mul, some .out, some .jit, some .jif, some .lt, some .eq,
          some .arb]
    | .afWriteOob => ∃ d a, (s.decodeAt s.pc.toInt).operands.getLast? = some d ∧ OutOfRange s d a ∧
        t.status.info = some a ∧
        (s.decodeAt s.pc.toInt).opcode ∈ [some .add, some .mul, some .inp, some .lt, some .eq]
    | .afWriteImm => (∃ v, (s.decodeAt s.pc.toInt).operands.getLast? = some (.imm v)) ∧ t.status.info = none ∧
        (s.decodeAt s.pc.toInt).opcode ∈ [some .add, some .mul, some .inp, some .lt, some .eq]
    | .efOverflow => s.cfg.arithOverflow = .fault ∧ t.status.info = none ∧ Overflows s (s.decodeAt s.pc.toInt)
    | .efReservedOperand => False
    | .none => False) ∧
  (∀ (o : Operand) (s : State) (v : Word), Reserved o →
    eval o s = .raised .efReservedOperand none s ∧ store o v s = .raised .efReservedOperand none s) ∧
  [Cause.dfFetchOob, .dfUnknownOpcode, .dfBadMode, .dfTruncated, .afReadOob, .afWriteOob, .afWriteImm, .efOverflow,
      .efReservedOperand].map (fun c => (c.code, c.faultClass)) =
    [(0x10, some .decode), (0x11, some .decode), (0x12, some .decode), (0x13, some .decode), (0x20, some .address),
      (0x21, some .address), (0x22, some .address), (0x30, some .execution), (0x31, some .execution)]

/-- How pc changes in a step (10_state.md R18): a taken jump sets it to the target's value; suspension, halt and a fault
leave it; every other instruction moves it on by its width, exactly. That no legal MEM_SIZE reaches 2^63 is the model's
(log entry 3). -/
def Obligations.PcChangesByTheTable : Prop :=
  ∀ s t : State, s.cfg.Legal → s.Live → step s = .next t →
    (t.status.state ≠ .run → t.pc = s.pc) ∧
    (t.status.state = .run →
      (∀ o, TakenJump s (s.decodeAt s.pc.toInt) o → ReadsAs s o t.pc) ∧
      ((∀ o, ¬ TakenJump s (s.decodeAt s.pc.toInt) o) →
        t.pc.toInt = s.pc.toInt + (s.decodeAt s.pc.toInt).width))

/-- rb is written only by a completed `arb` (10_state.md R20), Q only by a completed `in`, which removes its head
(10_state.md R22), and the parameters by nothing (00_scope.md R6), in every step. -/
def Obligations.RegistersChangeOnlyByTheirInstructions : Prop :=
  ∀ s t : State, step s = .next t →
    t.cfg = s.cfg ∧
    (t.rb ≠ s.rb → ∃ o, s.decodeAt s.pc.toInt = .arb o) ∧
    (t.queue = s.queue ∨ (∃ d, s.decodeAt s.pc.toInt = .inp d) ∧ t.queue = s.queue.tail ∧ s.queue ≠ [])

/-- The transitions of `status.state` (10_state.md R25), in every state that meets the invariant: to WAIT_INPUT when
`in` finds Q empty, from WAIT_INPUT to RUN when a step completes `in`, to HALTED on `hlt`, to FAULTED on a fault; HALTED
and FAULTED are terminal. -/
def Obligations.RunStateChangesByTheTable : Prop :=
  ∀ s t : State, s.Inv → step s = .next t →
    (s.status.state = .halted ∨ s.status.state = .faulted → t = s) ∧
    (s.Live →
      (t.status.state = .waitInput ↔ (∃ d, s.decodeAt s.pc.toInt = .inp d) ∧ s.queue = []) ∧
      (t.status.state = .halted ↔ s.decodeAt s.pc.toInt = .hlt) ∧
      (t.status.state = .faulted ↔ ∃ cause info, t.outcome = some (.fault cause info)) ∧
      (s.status.state = .waitInput → t.status.state = .run → ∃ d, s.decodeAt s.pc.toInt = .inp d))

/-- Suspension repeats until the host supplies a value, and then the input completes (40_execution_cycle.md R90): the
step re-fetches the pending `in` and runs it as from RUN. -/
def Obligations.SuspendedInputCompletesOnceSupplied : Prop :=
  ∀ (s : State) (d : Operand), s.Live → s.decodeAt s.pc.toInt = .inp d → s.queue = [] →
    ∃ t, step s = .next t ∧ t.status.state = .waitInput ∧ t.outcome = some .needInput ∧
      t.mem = s.mem ∧ t.pc = s.pc ∧ t.rb = s.rb ∧ t.queue = [] ∧
      (∃ u, step t = .next u ∧ u.outcome = some .needInput ∧ SameMachine u t ∧
        u.trace = t.trace ++ [.fetch s.pc.toInt]) ∧
      ∀ v, step (t.appendInputs [v]) = exec (.inp d) ((t.appendInputs [v]).emit (.fetch s.pc.toInt)) ∧
        ∀ n, WritesTo s d n → ∃ u, step (t.appendInputs [v]) = .next u ∧
          StoresCell t u n v 2 [] [.fetch s.pc.toInt, .write n]

/-- The trace of a step (60_exceptions.md R134, R135): nothing from a terminal state; else Fetch(pc), then at most two
Reads, then at most one Write, every address of a Read or Write in range. -/
def Obligations.StepTracesItsAccesses : Prop :=
  ∀ s t : State, step s = .next t →
    (¬ s.Live → t.trace = s.trace) ∧
    (s.Live → ∃ reads writes : List Int,
      t.trace = s.trace ++ .fetch s.pc.toInt :: (reads.map TraceEvent.read ++ writes.map TraceEvent.write) ∧
      reads.length ≤ 2 ∧ writes.length ≤ 1 ∧ ∀ a ∈ reads ++ writes, s.InRange a)

/-- A cell changes in a step only where the step emits Write of its address, and a step that faults, suspends or halts
changes none (60_exceptions.md R134; 40_execution_cycle.md R98). -/
def Obligations.CellsChangeOnlyWhereTraced : Prop :=
  ∀ s t : State, step s = .next t →
    ∃ events, t.trace = s.trace ++ events ∧
      (∀ x : Nat, t.mem.read x ≠ s.mem.read x → events.getLast? = some (.write x)) ∧
      (t.status.state ≠ .run → t.mem = s.mem)

/-! ### The invariant, reset and load -/

/-- Every step keeps the invariant of the machine. -/
def Obligations.EveryStepKeepsTheInvariant : Prop :=
  ∀ s t : State, s.Inv → step s = .next t → t.Inv

/-- The reset state meets the invariant. -/
def Obligations.ResetMeetsTheInvariant : Prop := State.reset.Inv

/-- Every loaded instance with legal parameters meets the invariant, and the host's input keeps it. -/
def Obligations.LoadAndInputKeepTheInvariant : Prop :=
  (∀ (cfg : Config) (image inputs : List Word), cfg.Legal → image.length ≤ cfg.memSize →
    ∃ s, load cfg image inputs = .next s ∧ s.Inv) ∧
  (∀ (s : State) (xs : List Word), s.Inv → (s.appendInputs xs).Inv)

/-- Load (70_reset_and_hazards.md R140, R141, R142): the image from cell 0 on, every other cell 0, pc = 0, rb = 0 (log
entry 11), the inputs in Q, status (RUN, 0, none, 0); an image longer than MEM_SIZE is refused. -/
def Obligations.LoadPlacesTheImage : Prop :=
  ∀ (cfg : Config) (image inputs : List Word),
    (image.length ≤ cfg.memSize → ∃ s, load cfg image inputs = .next s ∧
      (∀ k (h : k < image.length), s.mem.read k = image[k]) ∧ (∀ k, image.length ≤ k → s.mem.read k = 0) ∧
      s.pc = 0 ∧ s.rb = 0 ∧ s.queue = inputs ∧ s.cfg = cfg ∧
      s.status = { state := .run, cause := .none, info := none, faultPc := 0 }) ∧
    (cfg.memSize < image.length → load cfg image inputs = .refused .programTooLong)

/-! ### The trace port and the host -/

/-- The trace port never changes execution (60_exceptions.md R136): states that differ only in what the ports hold take
steps with the same outcome and the same new events to states that differ only so. -/
def Obligations.TracePortNeverChangesExecution : Prop :=
  ∀ s s' t : State, SameMachine s s' → step s = .next t →
    ∃ t' events, step s' = .next t' ∧ SameMachine t t' ∧ t'.outcome = t.outcome ∧
      t.trace = s.trace ++ events ∧ t'.trace = s'.trace ++ events

/-- Values appended behind the pending inputs are not seen by a step that does not suspend: it does the same, and leaves
them at the back (40_execution_cycle.md R92). -/
def Obligations.AppendedInputWaitsItsTurn : Prop :=
  ∀ (s t : State) (ys : List Word), step s = .next t → t.outcome ≠ some .needInput →
    step (s.appendInputs ys) = .next (t.appendInputs ys)

/-- `run` returns the first outcome that is not Continue, after steps that all returned Continue
(40_execution_cycle.md R91, R92). -/
def Obligations.RunReturnsTheFirstSignal : Prop :=
  ∀ (fuel : Nat) (v : Option Word) (s t : State) (o : StepOutcome), run fuel v s = .next (t, some o) →
    o ≠ .cont ∧ t.outcome = some o ∧
    ∃ k, k < fuel ∧ stepTimes (k + 1) { s with queue := s.queue ++ v.toList } = .next t ∧
      ∀ j, 1 ≤ j → j ≤ k → ∃ u, stepTimes j { s with queue := s.queue ++ v.toList } = .next u ∧
        u.outcome = some .cont

/-- `map` ends in a terminal state reached by steps from the state with all inputs appended, with the outputs of those
steps in emission order; input underflow leaves the machine suspended (40_execution_cycle.md R93, R94). -/
def Obligations.MapCollectsOutputsInOrder : Prop :=
  (∀ (fuel : Nat) (xs outs : List Word) (s t : State) (o : StepOutcome), map fuel xs s = .next (t, outs, some o) →
    t.outcome = some o ∧ ¬ t.Live ∧
    ∃ k, k ≤ fuel ∧ stepTimes k { s with queue := s.queue ++ xs } = .next t ∧
      outs = emittedBy k { s with queue := s.queue ++ xs }) ∧
  (∀ (fuel : Nat) (xs : List Word) (s : State), map fuel xs s = .fault .inputUnderflow →
    ∃ k t, k ≤ fuel ∧ stepTimes k { s with queue := s.queue ++ xs } = .next t ∧
      t.status.state = .waitInput ∧ t.outcome = some .needInput)

/-- Resumability (40_execution_cycle.md R100): a run with all inputs in Q from the start and a run that is given each
value only after a NeedInput end alike: if one ends in a halt or a fault so does the other, with the same outputs, outcome,
memory, pc, rb and status. -/
def Obligations.ResumedRunsEndAlike : Prop :=
  ∀ (s : State) (xs outs : List Word) (o : StepOutcome),
    (∀ n t, map n xs s = .next (t, outs, some o) →
      ∃ m u, feedOnDemand m xs s = .next (u, outs, some o) ∧ SameEnd t u) ∧
    (∀ m u, feedOnDemand m xs s = .next (u, outs, some o) →
      ∃ n t, map n xs s = .next (t, outs, some o) ∧ SameEnd t u)
end

