-- ==== Sys2Proof/Laws/Decode.lean ====
section
/-! SUPPORT. The small laws of the decoder's tables, and said once: everything the decoder can answer. -/

namespace Sys2Proof

@[simp] theorem Opcode.ofNumber_number (o : Opcode) : Opcode.ofNumber o.number = some o := by cases o <;> rfl

/-- The opcode map read both ways (30_encoding.md R60, R68). -/
theorem Opcode.ofNumber_eq_some {n : Nat} {o : Opcode} : Opcode.ofNumber n = some o ↔ o.number = n := by
  constructor
  · intro h
    have := List.find?_some h
    simpa using this
  · rintro rfl
    exact Opcode.ofNumber_number o

@[simp] theorem Mode.ofDigit_digit (m : Mode) : Mode.ofDigit m.digit = some m := by cases m <;> rfl

/-- The mode map read both ways (30_encoding.md R62). -/
theorem Mode.ofDigit_eq_some {n : Nat} {m : Mode} : Mode.ofDigit n = some m ↔ m.digit = n := by
  constructor
  · intro h
    have := List.find?_some h
    simpa using this
  · rintro rfl
    exact Mode.ofDigit_digit m

/-- The digits that select no mode are those from 3 on (30_encoding.md R69). -/
theorem Mode.ofDigit_eq_none {n : Nat} : Mode.ofDigit n = none ↔ 3 ≤ n := by
  constructor
  · intro h
    by_contra hn
    have h3 : n = 0 ∨ n = 1 ∨ n = 2 := by omega
    rcases h3 with rfl | rfl | rfl <;> cases h
  · intro h
    cases hm : Mode.ofDigit n with
    | none => rfl
    | some m =>
      have := Mode.ofDigit_eq_some.1 hm
      cases m <;> simp only [Mode.digit] at this <;> omega

@[simp] theorem Mode.tag_wf (m : Mode) (p : Word) : (m.tag p).wf = true := by cases m <;> rfl

@[simp] theorem Mode.tag_modeDigit (m : Mode) (p : Word) : (m.tag p).modeDigit = some m.digit := by cases m <;> rfl

@[simp] theorem Mode.tag_payload (m : Mode) (p : Word) : (m.tag p).payload = some p := by cases m <;> rfl

/-- A well-formed operand is a mode's tag on a parameter cell. -/
theorem Operand.eq_tag_of_wf {o : Operand} (h : o.wf = true) : ∃ m p, o = Mode.tag m p := by
  cases o with
  | pos p => exact ⟨.pos, p, rfl⟩
  | imm v => exact ⟨.imm, v, rfl⟩
  | rel d => exact ⟨.rel, d, rfl⟩
  | push => cases h
  | pop => cases h

/-- The modes of a word's parameters: as many as asked for, each selected by its digit (30_encoding.md R58). -/
theorem modesFrom_eq_some {w i n : Nat} {ms : List Mode} :
    modesFrom w i n = some ms ↔ ms.map Mode.digit = (List.range' (i + 1) n).map (digit w) := by
  induction n generalizing i ms with
  | zero => cases ms <;> simp [modesFrom]
  | succ n ih =>
    rw [modesFrom, List.range'_succ, List.map_cons]
    cases hm : Mode.ofDigit (digit w (i + 1)) with
    | none =>
      simp only [reduceCtorEq, false_iff]
      intro h
      cases ms with
      | nil => cases h
      | cons m ms =>
        rw [List.map_cons, List.cons.injEq] at h
        rw [Mode.ofDigit_eq_some.2 h.1] at hm
        cases hm
    | some m =>
      have hd := Mode.ofDigit_eq_some.1 hm
      cases hr : modesFrom w (i + 1) n with
      | none =>
        simp only [reduceCtorEq, false_iff]
        intro h
        cases ms with
        | nil => cases h
        | cons m' ms =>
          rw [List.map_cons, List.cons.injEq] at h
          rw [ih.2 h.2] at hr
          cases hr
      | some ms' =>
        have hs := ih.1 hr
        simp only [Option.some.injEq]
        constructor
        · rintro rfl
          rw [List.map_cons, hd, hs]
        · intro h
          cases ms with
          | nil => cases h
          | cons m' ms =>
            rw [List.map_cons, List.cons.injEq] at h
            have h1 : m' = m := by
              have := Mode.ofDigit_eq_some.2 h.1
              rw [hm] at this
              exact (Option.some.inj this).symm
            have h2 : ms = ms' := by
              have := ih.2 h.2
              rw [hr] at this
              exact (Option.some.inj this).symm
            rw [h1, h2]

/-- The first parameter cells are there exactly when none of them lies outside memory. -/
theorem takeParams_eq_some {n : Nat} {cells : List (Option Word)} {ps : List Word} :
    takeParams n cells = some ps ↔ n ≤ cells.length ∧ cells.take n = ps.map some := by
  induction n generalizing cells ps with
  | zero => cases ps <;> simp [takeParams]
  | succ n ih =>
    cases cells with
    | nil => simp [takeParams]
    | cons c rest =>
      cases c with
      | none =>
        simp only [takeParams, reduceCtorEq, List.length_cons, List.take_succ_cons, false_iff, not_and]
        intro _ h
        cases ps <;> simp at h
      | some p =>
        cases ps with
        | nil => simp [takeParams]
        | cons q ps =>
          simp only [takeParams, Option.map_eq_some_iff, List.cons.injEq, List.length_cons, Nat.add_le_add_iff_right,
            List.take_succ_cons, List.map_cons, Option.some.injEq]
          constructor
          · rintro ⟨ps', h, rfl, rfl⟩
            exact ⟨(ih.1 h).1, rfl, (ih.1 h).2⟩
          · rintro ⟨h1, rfl, h2⟩
            exact ⟨ps, ih.2 ⟨h1, h2⟩, rfl, rfl⟩

/-- Operands as many as the opcode has make its instruction (30_encoding.md R60). -/
theorem Opcode.build_of_length {op : Opcode} {os : List Operand} (h : os.length = op.nparams) :
    ∃ i, op.build os = some i ∧ i.opcode = some op ∧ i.operands = os := by
  cases op <;> simp only [Opcode.nparams] at h
  case add | mul | lt | eq =>
    obtain ⟨a, b, c, rfl⟩ := List.length_eq_three.1 h
    exact ⟨_, rfl, rfl, rfl⟩
  case jit | jif =>
    obtain ⟨a, b, rfl⟩ := List.length_eq_two.1 h
    exact ⟨_, rfl, rfl, rfl⟩
  case inp | out | arb =>
    obtain ⟨a, rfl⟩ := List.length_eq_one_iff.1 h
    exact ⟨_, rfl, rfl, rfl⟩
  case hlt =>
    obtain rfl := List.length_eq_zero_iff.1 h
    exact ⟨_, rfl, rfl, rfl⟩

/-- An instruction is its opcode built on its operands. -/
theorem Instr.build_operands {i : Instr} {op : Opcode} (h : i.opcode = some op) : op.build i.operands = some i := by
  cases i <;> cases h <;> rfl

theorem Instr.operands_length {i : Instr} {op : Opcode} (h : i.opcode = some op) : i.operands.length = op.nparams := by
  cases i <;> cases h <;> rfl

theorem Instr.width_of_opcode {i : Instr} {op : Opcode} (h : i.opcode = some op) : i.width = 1 + op.nparams := by
  simp only [Instr.width, h, Opcode.width]

/-- Well-formed: it has an opcode, and every operand is well formed. -/
theorem Instr.wf_iff {i : Instr} : i.wf = true ↔ i.opcode ≠ none ∧ ∀ o ∈ i.operands, o.wf = true := by
  cases i <;> simp [Instr.wf, Instr.opcode, Instr.operands, and_assoc]

/-- Said once: everything the decoder answers, and when. -/
inductive DecodeResult (strict : Bool) (w p1 p2 p3 : Option Word) : Instr → Prop where
  | fetchOob (h : w = none) : DecodeResult strict w p1 p2 p3 (.invalid .fetchOob)
  | negative (x : Word) (h : w = some x) (neg : x.toInt < 0) : DecodeResult strict w p1 p2 p3 (.invalid .unknownOpcode)
  | unknown (x : Word) (h : w = some x) (pos : 0 ≤ x.toInt) (no : ∀ op : Opcode, op.number ≠ x.toNat % 100) :
      DecodeResult strict w p1 p2 p3 (.invalid .unknownOpcode)
  | badMode (x : Word) (op : Opcode) (h : w = some x) (pos : 0 ≤ x.toInt) (code : op.number = x.toNat % 100)
      (bad : modesFrom x.toNat 1 op.nparams = none ∨ (strict = true ∧ x.toNat / 10 ^ (op.nparams + 2) ≠ 0)) :
      DecodeResult strict w p1 p2 p3 (.invalid .badMode)
  | truncated (x : Word) (op : Opcode) (ms : List Mode) (h : w = some x) (pos : 0 ≤ x.toInt)
      (code : op.number = x.toNat % 100) (modes : modesFrom x.toNat 1 op.nparams = some ms)
      (low : strict = true → x.toNat / 10 ^ (op.nparams + 2) = 0)
      (short : takeParams op.nparams [p1, p2, p3] = none) : DecodeResult strict w p1 p2 p3 (.invalid .truncated)
  | instr (x : Word) (op : Opcode) (ms : List Mode) (ps : List Word) (i : Instr) (h : w = some x) (pos : 0 ≤ x.toInt)
      (code : op.number = x.toNat % 100) (modes : modesFrom x.toNat 1 op.nparams = some ms)
      (low : strict = true → x.toNat / 10 ^ (op.nparams + 2) = 0)
      (cells : takeParams op.nparams [p1, p2, p3] = some ps)
      (opcode : i.opcode = some op) (operands : i.operands = List.zipWith Mode.tag ms ps) :
      DecodeResult strict w p1 p2 p3 i

theorem modesFrom_length {w i n : Nat} {ms : List Mode} (h : modesFrom w i n = some ms) : ms.length = n := by
  have := congrArg List.length (modesFrom_eq_some.1 h)
  simpa using this

theorem takeParams_length {n : Nat} {cells : List (Option Word)} {ps : List Word} (h : takeParams n cells = some ps) :
    ps.length = n := by
  obtain ⟨h1, h2⟩ := takeParams_eq_some.1 h
  have := congrArg List.length h2
  simp only [List.length_take, List.length_map] at this
  omega

/-- Everything the decoder answers (30_encoding.md R71). -/
theorem decode_result (strict : Bool) (w p1 p2 p3 : Option Word) :
    DecodeResult strict w p1 p2 p3 (decode strict w p1 p2 p3) := by
  cases w with
  | none => exact .fetchOob rfl
  | some x =>
    unfold decode
    simp only []
    split
    · next h => exact .negative x rfl h
    · next h =>
      have pos : 0 ≤ x.toInt := by omega
      split
      · next hn =>
        refine .unknown x rfl pos fun op hop => ?_
        rw [Opcode.ofNumber_eq_some.2 hop] at hn
        cases hn
      · next op hop =>
        have code := Opcode.ofNumber_eq_some.1 hop
        split
        · next hm => exact .badMode x op rfl pos code (.inl hm)
        · next ms hm =>
          split
          · next hs =>
            simp only [Bool.and_eq_true, bne_iff_ne] at hs
            exact .badMode x op rfl pos code (.inr hs)
          · next hs =>
            have low : strict = true → x.toNat / 10 ^ (op.nparams + 2) = 0 := by
              intro h
              subst h
              simpa using hs
            split
            · next hp => exact .truncated x op ms rfl pos code hm low hp
            · next ps hp =>
              have hlen : (List.zipWith Mode.tag ms ps).length = op.nparams := by
                simp [modesFrom_length hm, takeParams_length hp]
              obtain ⟨i, hb, ho, hos⟩ := Opcode.build_of_length hlen
              rw [hb]
              exact .instr x op ms ps i rfl pos code hm low hp ho hos

end Sys2Proof
end

