-- ==== Sys2Proof/Laws/State.lean ====
section
/-! SUPPORT. One lemma per field per update of State, true by rfl, so that no later proof unfolds a record update. -/

namespace Sys2Proof.Machine

variable (s : State)

@[simp] theorem State.emit_cfg (e : TraceEvent) : (s.emit e).cfg = s.cfg := rfl
@[simp] theorem State.emit_mem (e : TraceEvent) : (s.emit e).mem = s.mem := rfl
@[simp] theorem State.emit_pc (e : TraceEvent) : (s.emit e).pc = s.pc := rfl
@[simp] theorem State.emit_rb (e : TraceEvent) : (s.emit e).rb = s.rb := rfl
@[simp] theorem State.emit_queue (e : TraceEvent) : (s.emit e).queue = s.queue := rfl
@[simp] theorem State.emit_status (e : TraceEvent) : (s.emit e).status = s.status := rfl
@[simp] theorem State.emit_outcome (e : TraceEvent) : (s.emit e).outcome = s.outcome := rfl
@[simp] theorem State.emit_trace (e : TraceEvent) : (s.emit e).trace = s.trace ++ [e] := rfl

@[simp] theorem State.advance_cfg (n : Nat) : (s.advance n).cfg = s.cfg := rfl
@[simp] theorem State.advance_mem (n : Nat) : (s.advance n).mem = s.mem := rfl
@[simp] theorem State.advance_pc (n : Nat) : (s.advance n).pc = wrap64 (s.pc.toInt + n) := rfl
@[simp] theorem State.advance_rb (n : Nat) : (s.advance n).rb = s.rb := rfl
@[simp] theorem State.advance_queue (n : Nat) : (s.advance n).queue = s.queue := rfl
@[simp] theorem State.advance_status (n : Nat) : (s.advance n).status = s.status := rfl
@[simp] theorem State.advance_outcome (n : Nat) : (s.advance n).outcome = s.outcome := rfl
@[simp] theorem State.advance_trace (n : Nat) : (s.advance n).trace = s.trace := rfl

@[simp] theorem State.jump_cfg (v : Word) : (s.jump v).cfg = s.cfg := rfl
@[simp] theorem State.jump_mem (v : Word) : (s.jump v).mem = s.mem := rfl
@[simp] theorem State.jump_pc (v : Word) : (s.jump v).pc = v := rfl
@[simp] theorem State.jump_rb (v : Word) : (s.jump v).rb = s.rb := rfl
@[simp] theorem State.jump_queue (v : Word) : (s.jump v).queue = s.queue := rfl
@[simp] theorem State.jump_status (v : Word) : (s.jump v).status = s.status := rfl
@[simp] theorem State.jump_outcome (v : Word) : (s.jump v).outcome = s.outcome := rfl
@[simp] theorem State.jump_trace (v : Word) : (s.jump v).trace = s.trace := rfl

@[simp] theorem State.setCell_cfg (a : Int) (v : Word) : (s.setCell a v).cfg = s.cfg := rfl
@[simp] theorem State.setCell_mem (a : Int) (v : Word) : (s.setCell a v).mem = s.mem.write a.toNat v := rfl
@[simp] theorem State.setCell_pc (a : Int) (v : Word) : (s.setCell a v).pc = s.pc := rfl
@[simp] theorem State.setCell_rb (a : Int) (v : Word) : (s.setCell a v).rb = s.rb := rfl
@[simp] theorem State.setCell_queue (a : Int) (v : Word) : (s.setCell a v).queue = s.queue := rfl
@[simp] theorem State.setCell_status (a : Int) (v : Word) : (s.setCell a v).status = s.status := rfl
@[simp] theorem State.setCell_outcome (a : Int) (v : Word) : (s.setCell a v).outcome = s.outcome := rfl
@[simp] theorem State.setCell_trace (a : Int) (v : Word) : (s.setCell a v).trace = s.trace := rfl

@[simp] theorem State.setRb_cfg (v : Word) : (s.setRb v).cfg = s.cfg := rfl
@[simp] theorem State.setRb_mem (v : Word) : (s.setRb v).mem = s.mem := rfl
@[simp] theorem State.setRb_pc (v : Word) : (s.setRb v).pc = s.pc := rfl
@[simp] theorem State.setRb_rb (v : Word) : (s.setRb v).rb = v := rfl
@[simp] theorem State.setRb_queue (v : Word) : (s.setRb v).queue = s.queue := rfl
@[simp] theorem State.setRb_status (v : Word) : (s.setRb v).status = s.status := rfl
@[simp] theorem State.setRb_outcome (v : Word) : (s.setRb v).outcome = s.outcome := rfl
@[simp] theorem State.setRb_trace (v : Word) : (s.setRb v).trace = s.trace := rfl

@[simp] theorem State.setQueue_cfg (q : List Word) : (s.setQueue q).cfg = s.cfg := rfl
@[simp] theorem State.setQueue_mem (q : List Word) : (s.setQueue q).mem = s.mem := rfl
@[simp] theorem State.setQueue_pc (q : List Word) : (s.setQueue q).pc = s.pc := rfl
@[simp] theorem State.setQueue_rb (q : List Word) : (s.setQueue q).rb = s.rb := rfl
@[simp] theorem State.setQueue_queue (q : List Word) : (s.setQueue q).queue = q := rfl
@[simp] theorem State.setQueue_status (q : List Word) : (s.setQueue q).status = s.status := rfl
@[simp] theorem State.setQueue_outcome (q : List Word) : (s.setQueue q).outcome = s.outcome := rfl
@[simp] theorem State.setQueue_trace (q : List Word) : (s.setQueue q).trace = s.trace := rfl

@[simp] theorem State.finish_cfg (r : RunState) (o : StepOutcome) : (s.finish r o).cfg = s.cfg := rfl
@[simp] theorem State.finish_mem (r : RunState) (o : StepOutcome) : (s.finish r o).mem = s.mem := rfl
@[simp] theorem State.finish_pc (r : RunState) (o : StepOutcome) : (s.finish r o).pc = s.pc := rfl
@[simp] theorem State.finish_rb (r : RunState) (o : StepOutcome) : (s.finish r o).rb = s.rb := rfl
@[simp] theorem State.finish_queue (r : RunState) (o : StepOutcome) : (s.finish r o).queue = s.queue := rfl
@[simp] theorem State.finish_status (r : RunState) (o : StepOutcome) : (s.finish r o).status = { s.status with state := r } := rfl
@[simp] theorem State.finish_outcome (r : RunState) (o : StepOutcome) : (s.finish r o).outcome = some o := rfl
@[simp] theorem State.finish_trace (r : RunState) (o : StepOutcome) : (s.finish r o).trace = s.trace := rfl

@[simp] theorem State.takeFault_cfg (c : Cause) (i : Option Int) : (s.takeFault c i).cfg = s.cfg := rfl
@[simp] theorem State.takeFault_mem (c : Cause) (i : Option Int) : (s.takeFault c i).mem = s.mem := rfl
@[simp] theorem State.takeFault_pc (c : Cause) (i : Option Int) : (s.takeFault c i).pc = s.pc := rfl
@[simp] theorem State.takeFault_rb (c : Cause) (i : Option Int) : (s.takeFault c i).rb = s.rb := rfl
@[simp] theorem State.takeFault_queue (c : Cause) (i : Option Int) : (s.takeFault c i).queue = s.queue := rfl
@[simp] theorem State.takeFault_status (c : Cause) (i : Option Int) : (s.takeFault c i).status = { state := .faulted, cause := c, info := i, faultPc := s.pc } := rfl
@[simp] theorem State.takeFault_outcome (c : Cause) (i : Option Int) : (s.takeFault c i).outcome = some (.fault c i) := rfl
@[simp] theorem State.takeFault_trace (c : Cause) (i : Option Int) : (s.takeFault c i).trace = s.trace := rfl

@[simp] theorem State.appendInputs_cfg (xs : List Word) : (s.appendInputs xs).cfg = s.cfg := rfl
@[simp] theorem State.appendInputs_mem (xs : List Word) : (s.appendInputs xs).mem = s.mem := rfl
@[simp] theorem State.appendInputs_pc (xs : List Word) : (s.appendInputs xs).pc = s.pc := rfl
@[simp] theorem State.appendInputs_rb (xs : List Word) : (s.appendInputs xs).rb = s.rb := rfl
@[simp] theorem State.appendInputs_queue (xs : List Word) : (s.appendInputs xs).queue = s.queue ++ xs := rfl
@[simp] theorem State.appendInputs_status (xs : List Word) : (s.appendInputs xs).status = s.status := rfl
@[simp] theorem State.appendInputs_outcome (xs : List Word) : (s.appendInputs xs).outcome = s.outcome := rfl
@[simp] theorem State.appendInputs_trace (xs : List Word) : (s.appendInputs xs).trace = s.trace := rfl

/-- The range check reads the parameters alone. -/
theorem State.inRange_congr {s t : State} (h : s.cfg = t.cfg) (a : Int) : s.InRange a ↔ t.InRange a := by
  simp only [State.InRange, h]

/-- The decoder reads the parameters and the memory alone (30_encoding.md R74). -/
theorem State.decodeAt_congr {s t : State} (hc : s.cfg = t.cfg) (hm : s.mem = t.mem) (a : Int) :
    s.decodeAt a = t.decodeAt a := by
  simp only [State.decodeAt, State.fetchCell, State.InRange, hc, hm]

/-- The state after construction with an empty image is the reset state. -/
theorem load_nil : load Config.hw [] [] = .next State.reset := rfl

end Sys2Proof.Machine
end

