-- ==== Sys2Proof/Laws/Memory.lean ====
section
/-! SUPPORT. The laws of the memory operations: what a read gives after a write, and that every operation keeps the
canonical form. -/

namespace Sys2Proof.Machine

theorem Memory.read_erase (m : Memory) (a x : Nat) :
    (m.erase a).read x = if x = a then Memory.unlisted else m.read x := by
  induction m with
  | nil => simp [Memory.erase, Memory.read]
  | cons c rest ih =>
    by_cases hc : c.1 = a <;> by_cases hx : x = a <;> simp_all [Memory.erase, Memory.read]
    intro h; exact absurd h (fun h => hx h.symm)

theorem Memory.read_insert (m : Memory) (a : Nat) (v : Word) (x : Nat)
    (h : ∀ c ∈ m, c.1 ≠ a) : (m.insert a v).read x = if x = a then v else m.read x := by
  induction m with
  | nil =>
    by_cases hx : x = a
    · simp [Memory.insert, Memory.read, hx]
    · simp [Memory.insert, Memory.read, hx, Ne.symm hx]
  | cons c rest ih =>
    have hc : c.1 ≠ a := h c (by simp)
    have hr := ih fun e he => h e (by simp [he])
    by_cases hlt : a < c.1
    · by_cases hx : x = a
      · simp [Memory.insert, Memory.read, hlt, hx]
      · simp [Memory.insert, Memory.read, hlt, hx, Ne.symm hx]
    · by_cases hx : x = a
      · subst hx; simp [Memory.insert, Memory.read, hlt, hc, hr]
      · simp [Memory.insert, Memory.read, hlt, hx, hr]

theorem Memory.mem_erase {m : Memory} {a : Nat} {c : Cell} : c ∈ m.erase a ↔ c ∈ m ∧ c.1 ≠ a := by
  induction m with
  | nil => simp [Memory.erase]
  | cons e rest ih =>
    unfold Memory.erase
    split
    · next he =>
      rw [ih, List.mem_cons]
      refine ⟨fun h => ⟨.inr h.1, h.2⟩, fun h => ⟨h.1.resolve_left ?_, h.2⟩⟩
      rintro rfl
      exact h.2 he
    · next he =>
      rw [List.mem_cons, List.mem_cons, ih]
      constructor
      · rintro (rfl | h)
        · exact ⟨.inl rfl, he⟩
        · exact ⟨.inr h.1, h.2⟩
      · rintro ⟨rfl | h1, h2⟩
        · exact .inl rfl
        · exact .inr ⟨h1, h2⟩

theorem Memory.mem_insert {m : Memory} {a : Nat} {v : Word} {c : Cell} :
    c ∈ m.insert a v ↔ c = (a, v) ∨ c ∈ m := by
  induction m with
  | nil => simp [Memory.insert]
  | cons e rest ih =>
    by_cases he : a < e.1 <;> simp [Memory.insert, he, ih]
    tauto

/-- A write gives its cell the value and leaves every other cell alone (20_memory.md R39). -/
theorem Memory.read_write (m : Memory) (a : Nat) (v : Word) (x : Nat) :
    (m.write a v).read x = if x = a then v else m.read x := by
  unfold Memory.write
  split
  · next h => rw [Memory.read_erase, h]
  · rw [Memory.read_insert _ _ _ _ fun c hc => (Memory.mem_erase.1 hc).2, Memory.read_erase]
    split <;> rfl

/-- A cell listed after a write is the one written, or was listed before. -/
theorem Memory.mem_write {m : Memory} {a : Nat} {v : Word} {c : Cell} (h : c ∈ m.write a v) :
    c = (a, v) ∧ v ≠ Memory.unlisted ∨ c ∈ m ∧ c.1 ≠ a := by
  unfold Memory.write at h
  split at h
  · exact .inr (Memory.mem_erase.1 h)
  · next hv =>
    rcases Memory.mem_insert.1 h with h | h
    · exact .inl ⟨h, hv⟩
    · exact .inr (Memory.mem_erase.1 h)

theorem Memory.wf_erase {m : Memory} (a : Nat) (h : m.wf) : (m.erase a).wf := by
  refine ⟨?_, fun c hc => h.2 c (Memory.mem_erase.1 hc).1⟩
  have hp := h.1
  clear h
  induction m with
  | nil => exact hp
  | cons c rest ih =>
    rw [List.pairwise_cons] at hp
    unfold Memory.erase
    split
    · exact ih hp.2
    · exact List.pairwise_cons.2 ⟨fun e he => hp.1 e (Memory.mem_erase.1 he).1, ih hp.2⟩

theorem Memory.wf_insert {m : Memory} {a : Nat} {v : Word} (h : m.wf) (hv : v ≠ Memory.unlisted)
    (hn : ∀ c ∈ m, c.1 ≠ a) : (m.insert a v).wf := by
  refine ⟨?_, fun c hc => ?_⟩
  · have hp := h.1
    clear h
    induction m with
    | nil => simp [Memory.insert]
    | cons c rest ih =>
      rw [List.pairwise_cons] at hp
      unfold Memory.insert
      split
      · next hlt =>
        refine List.pairwise_cons.2 ⟨fun e he => ?_, List.pairwise_cons.2 hp⟩
        rcases List.mem_cons.1 he with rfl | he
        · exact hlt
        · exact Nat.lt_trans hlt (hp.1 e he)
      · next hlt =>
        refine List.pairwise_cons.2 ⟨fun e he => ?_, ih (fun e he => hn e (by simp [he])) hp.2⟩
        rcases Memory.mem_insert.1 he with rfl | he
        · have := hn c (by simp)
          simp only
          omega
        · exact hp.1 e he
  · rcases Memory.mem_insert.1 hc with rfl | hc
    · exact hv
    · exact h.2 c hc

/-- A write keeps the canonical form. -/
theorem Memory.wf_write {m : Memory} (a : Nat) (v : Word) (h : m.wf) : (m.write a v).wf := by
  unfold Memory.write
  split
  · exact Memory.wf_erase a h
  · next hv => exact Memory.wf_insert (Memory.wf_erase a h) hv fun c hc => (Memory.mem_erase.1 hc).2

theorem Memory.mem_ofCells {a : Nat} {ws : List Word} {c : Cell} (h : c ∈ Memory.ofCells a ws) :
    a ≤ c.1 ∧ c.1 < a + ws.length ∧ c.2 ≠ Memory.unlisted := by
  induction ws generalizing a with
  | nil => simp [Memory.ofCells] at h
  | cons w rest ih =>
    unfold Memory.ofCells at h
    split at h
    · obtain ⟨h1, h2, h3⟩ := ih h
      simp only [List.length_cons]
      exact ⟨by omega, by omega, h3⟩
    · next hw =>
      rcases List.mem_cons.1 h with rfl | h
      · simp only [List.length_cons]
        exact ⟨by omega, by omega, hw⟩
      · obtain ⟨h1, h2, h3⟩ := ih h
        simp only [List.length_cons]
        exact ⟨by omega, by omega, h3⟩

/-- A loaded image is in canonical form. -/
theorem Memory.wf_ofCells (a : Nat) (ws : List Word) : (Memory.ofCells a ws).wf := by
  refine ⟨?_, fun c hc => (Memory.mem_ofCells hc).2.2⟩
  induction ws generalizing a with
  | nil => simp [Memory.ofCells]
  | cons w rest ih =>
    unfold Memory.ofCells
    split
    · exact ih _
    · exact List.pairwise_cons.2 ⟨fun e he => (Memory.mem_ofCells he).1, ih _⟩

theorem Memory.read_eq_unlisted {m : Memory} {x : Nat} (h : ∀ c ∈ m, c.1 ≠ x) : m.read x = Memory.unlisted := by
  induction m with
  | nil => rfl
  | cons c rest ih =>
    have hc := h c (by simp)
    simp [Memory.read, hc, ih fun e he => h e (by simp [he])]

/-- The cells of a loaded image read as the image gives them, and every cell past it as an unlisted one. -/
theorem Memory.read_ofCells (a : Nat) (ws : List Word) (k : Nat) :
    (Memory.ofCells a ws).read (a + k) = ws.getD k Memory.unlisted := by
  induction ws generalizing a k with
  | nil => rfl
  | cons w rest ih =>
    unfold Memory.ofCells
    cases k with
    | zero =>
      split
      · next h =>
        rw [Memory.read_eq_unlisted fun c hc => by have := (Memory.mem_ofCells hc).1; omega]
        simp [h]
      · simp [Memory.read]
    | succ k =>
      have hk : a + (k + 1) = a + 1 + k := by omega
      split
      · rw [hk, ih]; simp
      · rw [Memory.read, if_neg (by simp), hk, ih]; simp

/-- The memory after reset is in canonical form. -/
theorem reset_mem_wf : State.reset.mem.wf := by decide

end Sys2Proof.Machine
end

