-- ==== Sys2Proof/Laws/Ops.lean ====
section
/-! SUPPORT. What the shared operations of a step can do: staged execution, commit, operand reads and stores, the ALU. -/

namespace Sys2Proof.Machine

variable {s t : State}

@[simp] theorem Staged.bind_ok {α β : Type} (v : α) (t : State) (f : α → State → Staged β) :
    (Staged.ok v t).bind f = f v t := rfl

@[simp] theorem Staged.bind_raised {α β : Type} (c : Cause) (i : Option Int) (t : State) (f : α → State → Staged β) :
    (Staged.raised c i t).bind f = .raised c i t := rfl

/-- The fetch port gives a cell in range its value (20_memory.md R44). -/
theorem State.fetchCell_eq_some {a : Int} {w : Word} : s.fetchCell a = some w ↔ s.InRange a ∧ w = s.mem.read a.toNat := by
  unfold State.fetchCell
  by_cases h : s.InRange a
  · rw [if_pos h]
    exact ⟨fun e => ⟨h, (Option.some.inj e).symm⟩, fun e => by rw [e.2]⟩
  · rw [if_neg h]
    exact ⟨fun e => (by cases e), fun e => absurd e.1 h⟩

/-- The fetch port gives nothing outside memory (20_memory.md R44). -/
theorem State.fetchCell_eq_none {a : Int} : s.fetchCell a = none ↔ ¬ s.InRange a := by
  unfold State.fetchCell
  by_cases h : s.InRange a
  · rw [if_pos h]
    exact ⟨fun e => (by cases e), fun e => absurd h e⟩
  · rw [if_neg h]
    exact ⟨fun _ => h, fun _ => rfl⟩

/-- A reserved placeholder has no effective address. -/
theorem effAddr_of_reserved {o : Operand} (h : Reserved o) (rb : Word) : effAddr o rb = .reserved := by
  rcases h with rfl | rfl <;> rfl

/-- A commit always answers a next state. -/
theorem commit_next (s : State) (x : Staged Signal) : ∃ t, commit s x = .next t := by
  rcases x with ⟨(_ | _ | _ | _), t⟩ | ⟨c, i, t⟩ <;> exact ⟨_, rfl⟩

/-- A readable operand gives its value and its event. -/
theorem eval_of_readsAs {o : Operand} {v : Word} (h : ReadsAs s o v) :
    eval o s = .ok v { s with trace := s.trace ++ readEvents s o } := by
  unfold ReadsAs at h
  unfold eval readEvents
  cases he : effAddr o s.rb with
  | immediate x => rw [he] at h; subst h; simp
  | addr a =>
    rw [he] at h
    obtain ⟨hr, rfl⟩ := h
    simp [readCell, hr, State.emit]
  | reserved => rw [he] at h; exact h.elim

/-- An operand outside memory raises AF_READ_OOB with its address. -/
theorem eval_of_outOfRange {o : Operand} {a : Int} (h : OutOfRange s o a) :
    eval o s = .raised .afReadOob (some a) s := by
  simp [eval, h.1, readCell, h.2]

/-- A reserved placeholder raises EF_RESERVED_OPERAND. -/
theorem eval_of_reserved {o : Operand} (h : effAddr o s.rb = .reserved) :
    eval o s = .raised .efReservedOperand none s := by
  simp [eval, h]

/-- Everything an evaluation can do. -/
theorem eval_cases (o : Operand) (s : State) :
    (∃ v, ReadsAs s o v ∧ eval o s = .ok v { s with trace := s.trace ++ readEvents s o }) ∨
    (∃ a, OutOfRange s o a ∧ eval o s = .raised .afReadOob (some a) s) ∨
    (effAddr o s.rb = .reserved ∧ eval o s = .raised .efReservedOperand none s) := by
  cases he : effAddr o s.rb with
  | immediate x =>
    have hr : ReadsAs s o x := by simp [ReadsAs, he]
    exact .inl ⟨x, hr, eval_of_readsAs hr⟩
  | addr a =>
    by_cases h : s.InRange a
    · have hr : ReadsAs s o (s.mem.read a.toNat) := by
        simp only [ReadsAs, he, and_true]
        exact h
      exact .inl ⟨_, hr, eval_of_readsAs hr⟩
    · exact .inr (.inl ⟨a, ⟨he, h⟩, eval_of_outOfRange ⟨he, h⟩⟩)
  | reserved => exact .inr (.inr ⟨rfl, eval_of_reserved he⟩)

/-- A destination in memory takes the value and emits its event. -/
theorem store_of_writesTo {d : Operand} {a : Int} (v : Word) (h : WritesTo s d a) :
    store d v s = .ok () ((s.setCell a v).emit (.write a)) := by
  simp [store, h.1, writeCell, h.2]

/-- A destination outside memory raises AF_WRITE_OOB with its address. -/
theorem store_of_outOfRange {d : Operand} {a : Int} (v : Word) (h : OutOfRange s d a) :
    store d v s = .raised .afWriteOob (some a) s := by
  simp [store, h.1, writeCell, h.2]

/-- An immediate destination raises AF_WRITE_IMM. -/
theorem store_imm (x v : Word) (s : State) : store (.imm x) v s = .raised .afWriteImm none s := rfl

/-- Everything a store can do. -/
theorem store_cases (d : Operand) (v : Word) (s : State) :
    (∃ a, WritesTo s d a ∧ store d v s = .ok () ((s.setCell a v).emit (.write a))) ∨
    (∃ a, OutOfRange s d a ∧ store d v s = .raised .afWriteOob (some a) s) ∨
    ((∃ x, d = .imm x) ∧ store d v s = .raised .afWriteImm none s) ∨
    (effAddr d s.rb = .reserved ∧ store d v s = .raised .efReservedOperand none s) := by
  cases he : effAddr d s.rb with
  | immediate x =>
    refine .inr (.inr (.inl ⟨?_, by simp [store, he]⟩))
    cases d <;> simp [effAddr] at he ⊢
  | addr a =>
    by_cases h : s.InRange a
    · exact .inl ⟨a, ⟨he, h⟩, store_of_writesTo v ⟨he, h⟩⟩
    · exact .inr (.inl ⟨a, ⟨he, h⟩, store_of_outOfRange v ⟨he, h⟩⟩)
  | reserved => exact .inr (.inr (.inr ⟨rfl, by simp [store, he]⟩))

/-- Everything `narrow` can do. -/
theorem narrow_cases (n : Int) (s : State) :
    ((InI64 n ∨ s.cfg.arithOverflow = .wrap) ∧ narrow n s = .ok (wrap64 n) s) ∨
    ((¬ InI64 n ∧ s.cfg.arithOverflow = .fault) ∧ narrow n s = .raised .efOverflow none s) := by
  unfold narrow
  by_cases h : InI64 n
  · exact .inl ⟨.inl h, by rw [if_pos h]⟩
  · rw [if_neg h]
    cases ho : s.cfg.arithOverflow
    · exact .inl ⟨.inr rfl, rfl⟩
    · exact .inr ⟨⟨h, rfl⟩, rfl⟩

end Sys2Proof.Machine
end

