-- ==== Sys2Proof/Laws/Exec.lean ====
section
/-! SUPPORT. Said once: everything the execution of an instruction can do. Invariants and whole-machine claims follow from
this inversion, without unfolding an instruction again. -/

namespace Sys2Proof.Machine

/-- On what grounds an instruction records a fault (60_exceptions.md R121). -/
def FaultGrounds (s : State) (i : Instr) (cause : Cause) (info : Option Int) : Prop :=
  match cause with
  | .dfFetchOob => i = .invalid .fetchOob ∧ info = some s.pc.toInt
  | .dfUnknownOpcode => i = .invalid .unknownOpcode ∧ info = some s.pc.toInt
  | .dfBadMode => i = .invalid .badMode ∧ info = some s.pc.toInt
  | .dfTruncated => i = .invalid .truncated ∧ info = some s.pc.toInt
  | .afReadOob => ∃ o a, o ∈ i.operands.take 2 ∧ OutOfRange s o a ∧ info = some a ∧
      i.opcode ∈ [some .add, some .mul, some .out, some .jit, some .jif, some .lt, some .eq, some .arb]
  | .afWriteOob => ∃ d a, i.operands.getLast? = some d ∧ OutOfRange s d a ∧ info = some a ∧
      i.opcode ∈ [some .add, some .mul, some .inp, some .lt, some .eq]
  | .afWriteImm => (∃ v, i.operands.getLast? = some (.imm v)) ∧ info = none ∧
      i.opcode ∈ [some .add, some .mul, some .inp, some .lt, some .eq]
  | .efOverflow => s.cfg.arithOverflow = .fault ∧ info = none ∧ Overflows s i
  | .efReservedOperand => (∃ o, o ∈ i.operands ∧ effAddr o s.rb = .reserved) ∧ info = none
  | .none => False

/-- Everything the execution of an instruction can do. The reads stand first, at most two and all in range; then the
instruction completes without a store, completes with one, suspends, halts or faults. -/
inductive ExecResult (i : Instr) (s : State) (reads : List Int) : Host.Outcome State Fault Refusal → Prop where
  | plain (pc rb : Word) (o : StepOutcome)
      (signal : o = .cont ∨ ∃ x v, i = .out x ∧ ReadsAs s x v ∧ o = .output v)
      (base : rb = s.rb ∨ ∃ x, i = .arb x)
      (target : (∃ t, TakenJump s i t ∧ ReadsAs s t pc) ∨
        (∀ t, ¬ TakenJump s i t) ∧ pc = wrap64 (s.pc.toInt + i.width))
      (notHlt : i ≠ .hlt) (notIn : ∀ d, i ≠ .inp d) :
      ExecResult i s reads (.next (afterPlain s pc rb s.queue o (reads.map .read)))
  | stored (a : Int) (v : Word) (queue : List Word) (inRange : s.InRange a)
      (notJump : ∀ t, ¬ TakenJump s i t)
      (taken : (queue = s.queue ∧ ∀ d, i ≠ .inp d) ∨ ∃ d, i = .inp d ∧ s.queue = v :: queue) (notHlt : i ≠ .hlt) :
      ExecResult i s reads (.next
        { afterPlain s (wrap64 (s.pc.toInt + i.width)) s.rb queue .cont (reads.map .read ++ [.write a]) with
          mem := s.mem.write a.toNat v })
  | suspended (d : Operand) (isIn : i = .inp d) (empty : s.queue = []) (noReads : reads = []) :
      ExecResult i s reads (.next (s.finish .waitInput .needInput))
  | halted (isHlt : i = .hlt) (noReads : reads = []) : ExecResult i s reads (.next (s.finish .halted .halted))
  | faulted (cause : Cause) (info : Option Int) (grounds : FaultGrounds s i cause info) (notHlt : i ≠ .hlt)
      (notStarved : ∀ d, i = .inp d → s.queue ≠ []) :
      ExecResult i s reads (.next (afterFault s cause info (reads.map .read)))

/-- The addresses an evaluation reads: one in range, or none. -/
theorem readEvents_of_readsAs {s : State} {o : Operand} {v : Word} (h : ReadsAs s o v) :
    ∃ l : List Int, readEvents s o = l.map .read ∧ l.length ≤ 1 ∧ ∀ a ∈ l, s.InRange a := by
  unfold ReadsAs at h
  unfold readEvents
  cases he : effAddr o s.rb with
  | addr a =>
    rw [he] at h
    exact ⟨[a], rfl, Nat.le_refl 1, fun x hx => by rw [List.mem_singleton.1 hx]; exact h.1⟩
  | immediate x => exact ⟨[], rfl, Nat.zero_le 1, fun x hx => by cases hx⟩
  | reserved => exact ⟨[], rfl, Nat.zero_le 1, fun x hx => by cases hx⟩

/-- A commit of a raised fault. -/
theorem commit_raised (s : State) (c : Cause) (n : Option Int) (es : List TraceEvent) :
    commit s (.raised c n { s with trace := s.trace ++ es }) = .next (afterFault s c n es) := rfl

theorem commit_raised_nil (s : State) (c : Cause) (n : Option Int) :
    commit s (.raised c n s) = .next (afterFault s c n []) := by
  simp [commit, State.takeFault, afterFault]

/-- What the two-source shape of `add`, `mul`, `lt` and `eq` can do, for an ALU function that gives a value or
overflows. -/
theorem binaryOp_result {i : Instr} {alu : Word → Word → State → Staged Word} {s1 s2 d : Operand} {s : State}
    (halu : ∀ a b t, ReadsAs s s1 a → ReadsAs s s2 b → (∃ r, alu a b t = .ok r t) ∨
      (alu a b t = .raised .efOverflow none t ∧ t.cfg.arithOverflow = .fault ∧ Overflows s i))
    (hops : i.operands = [s1, s2, d]) (hwidth : i.width = 4)
    (hcode : i.opcode ∈ [some .add, some .mul, some .lt, some .eq])
    (hjump : ∀ t, ¬ TakenJump s i t) (hin : ∀ d, i ≠ .inp d) (hhlt : i ≠ .hlt) :
    ∃ reads : List Int, reads.length ≤ 2 ∧ (∀ a ∈ reads, s.InRange a) ∧
      ExecResult i s reads (binaryOp alu s1 s2 d s) := by
  have hread : i.opcode ∈ [some .add, some .mul, some .out, some .jit, some .jif, some .lt, some .eq, some .arb] := by
    simp only [List.mem_cons, List.not_mem_nil, or_false] at hcode ⊢; tauto
  have hwrite : i.opcode ∈ [some .add, some .mul, some .inp, some .lt, some .eq] := by
    simp only [List.mem_cons, List.not_mem_nil, or_false] at hcode ⊢; tauto
  have hlast : i.operands.getLast? = some d := by rw [hops]; rfl
  have hst : ∀ d, i = .inp d → s.queue ≠ [] := fun d h => absurd h (hin d)
  unfold binaryOp
  rcases eval_cases s1 s with ⟨a, ha, e1⟩ | ⟨n, hn, e1⟩ | ⟨hr, e1⟩
  · obtain ⟨l1, hl1, len1, in1⟩ := readEvents_of_readsAs ha
    rw [e1, Staged.bind_ok, hl1]
    rcases eval_cases s2 { s with trace := s.trace ++ l1.map .read } with ⟨b, hb, e2⟩ | ⟨n, hn, e2⟩ | ⟨hr, e2⟩
    · obtain ⟨l2, hl2, len2, in2⟩ := readEvents_of_readsAs hb
      have hin12 : ∀ a ∈ l1 ++ l2, s.InRange a := fun x hx => (List.mem_append.1 hx).elim (in1 x) (in2 x)
      have hmap : (s.trace ++ l1.map TraceEvent.read) ++ l2.map TraceEvent.read =
          s.trace ++ (l1 ++ l2).map TraceEvent.read := by simp
      rw [e2, Staged.bind_ok, hl2]
      simp only [hmap]
      refine ⟨l1 ++ l2, by simp; omega, hin12, ?_⟩
      rcases halu a b { s with trace := s.trace ++ (l1 ++ l2).map .read } ha hb with ⟨r, hr⟩ | ⟨hr, hf, ho⟩
      · rw [hr, Staged.bind_ok]
        rcases store_cases d r { s with trace := s.trace ++ (l1 ++ l2).map .read } with
          ⟨n, hn, e⟩ | ⟨n, hn, e⟩ | ⟨⟨x, hx⟩, e⟩ | ⟨hn, e⟩
        · rw [e, Staged.bind_ok]
          have := ExecResult.stored (s := s) (reads := l1 ++ l2) n r s.queue hn.2 hjump (.inl ⟨rfl, hin⟩) hhlt
          rw [hwidth] at this
          simpa [commit, State.finish, State.advance, State.emit, State.setCell, afterPlain] using this
        · rw [e, Staged.bind_raised, commit_raised]
          exact .faulted _ _ ⟨d, n, hlast, hn, rfl, hwrite⟩ hhlt hst
        · rw [e, Staged.bind_raised, commit_raised]
          exact .faulted _ _ ⟨⟨x, by rw [hlast, hx]⟩, rfl, hwrite⟩ hhlt hst
        · rw [e, Staged.bind_raised, commit_raised]
          exact .faulted _ _ ⟨⟨d, by simp [hops], hn⟩, rfl⟩ hhlt hst
      · rw [hr, Staged.bind_raised, commit_raised]
        exact .faulted _ _ ⟨hf, rfl, ho⟩ hhlt hst
    · rw [e2, Staged.bind_raised, commit_raised]
      exact ⟨l1, by omega, in1, .faulted _ _ ⟨s2, n, by simp [hops], hn, rfl, hread⟩ hhlt hst⟩
    · rw [e2, Staged.bind_raised, commit_raised]
      exact ⟨l1, by omega, in1, .faulted _ _ ⟨⟨s2, by simp [hops], hr⟩, rfl⟩ hhlt hst⟩
  · rw [e1, Staged.bind_raised, commit_raised_nil]
    exact ⟨[], by simp, by simp, .faulted _ _ ⟨s1, n, by simp [hops], hn, rfl, hread⟩ hhlt hst⟩
  · rw [e1, Staged.bind_raised, commit_raised_nil]
    exact ⟨[], by simp, by simp, .faulted _ _ ⟨⟨s1, by simp [hops], hr⟩, rfl⟩ hhlt hst⟩

/-- What a conditional jump can do, for the condition values `takes` holds of. -/
theorem condJump_result {i : Instr} {takes : Word → Bool} {c t : Operand} {s : State}
    (htaken : ∀ x, ReadsAs s c x → takes x = true → TakenJump s i t)
    (hnot : ∀ x, ReadsAs s c x → takes x = false → ∀ t, ¬ TakenJump s i t)
    (hops : i.operands = [c, t]) (hwidth : i.width = 3) (hcode : i.opcode ∈ [some .jit, some .jif])
    (hin : ∀ d, i ≠ .inp d) (hhlt : i ≠ .hlt) :
    ∃ reads : List Int, reads.length ≤ 2 ∧ (∀ a ∈ reads, s.InRange a) ∧ ExecResult i s reads (condJump takes c t s) := by
  have hread : i.opcode ∈ [some .add, some .mul, some .out, some .jit, some .jif, some .lt, some .eq, some .arb] := by
    simp only [List.mem_cons, List.not_mem_nil, or_false] at hcode ⊢; tauto
  have hst : ∀ d, i = .inp d → s.queue ≠ [] := fun d h => absurd h (hin d)
  unfold condJump
  rcases eval_cases c s with ⟨x, hx, e1⟩ | ⟨n, hn, e1⟩ | ⟨hr, e1⟩
  · obtain ⟨l1, hl1, len1, in1⟩ := readEvents_of_readsAs hx
    rw [e1, Staged.bind_ok, hl1]
    have fall : takes x = false → ∀ l : List Int,
        ExecResult i s l (commit s (.ok .cont (State.advance { s with trace := s.trace ++ l.map .read } 3))) := by
      intro hf l
      have := ExecResult.plain (reads := l) (wrap64 (s.pc.toInt + i.width)) s.rb .cont (.inl rfl) (.inl rfl)
        (.inr ⟨hnot x hx hf, rfl⟩) hhlt hin
      rw [hwidth] at this
      exact this
    have go : ∀ (v : Word), takes x = true → ReadsAs s t v → ∀ l : List Int,
        ExecResult i s l (commit s (.ok .cont (State.jump { s with trace := s.trace ++ l.map .read } v))) :=
      fun v ht hv l => .plain v s.rb .cont (.inl rfl) (.inl rfl) (.inl ⟨t, htaken x hx ht, hv⟩) hhlt hin
    rcases eval_cases t { s with trace := s.trace ++ l1.map .read } with ⟨v, hv, e2⟩ | ⟨n, hn, e2⟩ | ⟨hr, e2⟩
    · obtain ⟨l2, hl2, len2, in2⟩ := readEvents_of_readsAs hv
      have hin12 : ∀ a ∈ l1 ++ l2, s.InRange a := fun x hx => (List.mem_append.1 hx).elim (in1 x) (in2 x)
      have hmap : (s.trace ++ l1.map TraceEvent.read) ++ l2.map TraceEvent.read =
          s.trace ++ (l1 ++ l2).map TraceEvent.read := by simp
      have len12 : (l1 ++ l2).length ≤ 2 := by simp; omega
      rw [e2, hl2]
      simp only [hmap, Staged.bind_ok]
      cases s.cfg.jumpTargetEval <;> cases htx : takes x <;> simp only [if_true, if_false, Bool.false_eq_true]
      · exact ⟨l1, by omega, in1, fall htx l1⟩
      · exact ⟨l1 ++ l2, len12, hin12, go v htx hv _⟩
      · exact ⟨l1 ++ l2, len12, hin12, fall htx _⟩
      · exact ⟨l1 ++ l2, len12, hin12, go v htx hv _⟩
    · refine ⟨l1, by omega, in1, ?_⟩
      have hf : ExecResult i s l1 (commit s (.raised .afReadOob (some n) { s with trace := s.trace ++ l1.map .read })) :=
        .faulted _ _ ⟨t, n, by simp [hops], hn, rfl, hread⟩ hhlt hst
      rw [e2]
      cases s.cfg.jumpTargetEval <;> cases htx : takes x <;> simp only [if_true, if_false, Bool.false_eq_true]
      · exact fall htx l1
      · exact hf
      · exact hf
      · exact hf
    · refine ⟨l1, by omega, in1, ?_⟩
      have hf : ExecResult i s l1 (commit s (.raised .efReservedOperand none { s with trace := s.trace ++ l1.map .read })) :=
        .faulted _ _ ⟨⟨t, by simp [hops], hr⟩, rfl⟩ hhlt hst
      rw [e2]
      cases s.cfg.jumpTargetEval <;> cases htx : takes x <;> simp only [if_true, if_false, Bool.false_eq_true]
      · exact fall htx l1
      · exact hf
      · exact hf
      · exact hf
  · rw [e1, Staged.bind_raised, commit_raised_nil]
    exact ⟨[], by simp, by simp, .faulted _ _ ⟨c, n, by simp [hops], hn, rfl, hread⟩ hhlt hst⟩
  · rw [e1, Staged.bind_raised, commit_raised_nil]
    exact ⟨[], by simp, by simp, .faulted _ _ ⟨⟨c, by simp [hops], hr⟩, rfl⟩ hhlt hst⟩

/-- An instruction other than `jit` and `jif` takes no jump. -/
theorem not_takenJump {s : State} {i : Instr} (h : ∀ c t, i ≠ .jit c t ∧ i ≠ .jif c t) (t : Operand) :
    ¬ TakenJump s i t := by
  rintro ⟨c, x, -, h1 | h1⟩
  · exact (h c t).1 h1.1
  · exact (h c t).2 h1.1

theorem ReadsAs.unique {s : State} {o : Operand} {v w : Word} (hv : ReadsAs s o v) (hw : ReadsAs s o w) : v = w := by
  unfold ReadsAs at hv hw
  cases he : effAddr o s.rb <;> rw [he] at hv hw
  · exact hv.2.trans hw.2.symm
  · exact hv.trans hw.symm
  · exact hv.elim

/-- Everything the execution of an instruction can do. -/
theorem exec_result (i : Instr) (s : State) :
    ∃ reads : List Int, reads.length ≤ 2 ∧ (∀ a ∈ reads, s.InRange a) ∧ ExecResult i s reads (exec i s) := by
  have narrow_ok : ∀ (j : Instr) (n : Int) (t : State), (¬ InI64 n → Overflows s j) →
      (∃ r, narrow n t = .ok r t) ∨ (narrow n t = .raised .efOverflow none t ∧ t.cfg.arithOverflow = .fault ∧
        Overflows s j) := by
    intro j n t hj
    rcases narrow_cases n t with ⟨-, h⟩ | ⟨⟨hn, hf⟩, h⟩
    · exact .inl ⟨_, h⟩
    · exact .inr ⟨h, hf, hj hn⟩
  cases i with
  | add s1 s2 d =>
    exact binaryOp_result (fun a b t ha hb => narrow_ok _ _ t fun h => .inl ⟨s1, s2, d, a, b, rfl, ha, hb, h⟩) rfl rfl (by simp [Instr.opcode])
      (not_takenJump (by simp)) (by simp) (by simp)
  | mul s1 s2 d =>
    exact binaryOp_result (fun a b t ha hb => narrow_ok _ _ t fun h => .inr (.inl ⟨s1, s2, d, a, b, rfl, ha, hb, h⟩)) rfl rfl (by simp [Instr.opcode])
      (not_takenJump (by simp)) (by simp) (by simp)
  | lt s1 s2 d =>
    exact binaryOp_result (fun a b t _ _ => .inl ⟨_, rfl⟩) rfl rfl (by simp [Instr.opcode])
      (not_takenJump (by simp)) (by simp) (by simp)
  | eq s1 s2 d =>
    exact binaryOp_result (fun a b t _ _ => .inl ⟨_, rfl⟩) rfl rfl (by simp [Instr.opcode])
      (not_takenJump (by simp)) (by simp) (by simp)
  | jit c t =>
    refine condJump_result (fun x hx h => ⟨c, x, hx, .inl ⟨rfl, by simpa [aluTest] using h⟩⟩) ?_ rfl rfl
      (by simp [Instr.opcode]) (by simp) (by simp)
    rintro x hx h u ⟨c', y, hy, ⟨h1, h2⟩ | ⟨h1, h2⟩⟩
    · obtain ⟨rfl, rfl⟩ : c = c' ∧ t = u := by simpa using h1
      rw [ReadsAs.unique hy hx] at h2
      exact h2 (by simpa [aluTest] using h)
    · cases h1
  | jif c t =>
    refine condJump_result (fun x hx h => ⟨c, x, hx, .inr ⟨rfl, by simpa [aluTest] using h⟩⟩) ?_ rfl rfl
      (by simp [Instr.opcode]) (by simp) (by simp)
    rintro x hx h u ⟨c', y, hy, ⟨h1, h2⟩ | ⟨h1, h2⟩⟩
    · cases h1
    · obtain ⟨rfl, rfl⟩ : c = c' ∧ t = u := by simpa using h1
      rw [ReadsAs.unique hy hx] at h2
      rw [h2] at h
      cases h
  | inp d =>
    refine ⟨[], by simp, by simp, ?_⟩
    show ExecResult _ s [] (execIn d s)
    unfold execIn
    cases hq : s.queue with
    | nil => exact .suspended d rfl hq rfl
    | cons v rest =>
      have hst : ∀ d', Instr.inp d = .inp d' → s.queue ≠ [] := by simp [hq]
      simp only []
      rcases store_cases d v s with ⟨n, hn, e⟩ | ⟨n, hn, e⟩ | ⟨⟨x, hx⟩, e⟩ | ⟨hn, e⟩
      · rw [e, Staged.bind_ok]
        exact .stored (i := .inp d) n v rest hn.2 (not_takenJump (by simp)) (.inr ⟨d, rfl, hq⟩) (by simp)
      · rw [e, Staged.bind_raised, commit_raised_nil]
        exact .faulted _ _ ⟨d, n, rfl, hn, rfl, by simp [Instr.opcode]⟩ (by simp) hst
      · rw [e, Staged.bind_raised, commit_raised_nil]
        exact .faulted _ _ ⟨⟨x, by rw [hx]; rfl⟩, rfl, by simp [Instr.opcode]⟩ (by simp) hst
      · rw [e, Staged.bind_raised, commit_raised_nil]
        exact .faulted _ _ ⟨⟨d, by simp [Instr.operands], hn⟩, rfl⟩ (by simp) hst
  | out o =>
    show ∃ reads, _ ∧ _ ∧ ExecResult _ s reads (execOut o s)
    unfold execOut
    rcases eval_cases o s with ⟨v, hv, e⟩ | ⟨n, hn, e⟩ | ⟨hr, e⟩
    · obtain ⟨l, hl, len, hin⟩ := readEvents_of_readsAs hv
      rw [e, Staged.bind_ok, hl]
      exact ⟨l, by omega, hin, .plain (i := .out o) _ s.rb (.output v) (.inr ⟨o, v, rfl, hv, rfl⟩) (.inl rfl)
        (.inr ⟨not_takenJump (by simp), rfl⟩) (by simp) (by simp)⟩
    · rw [e, Staged.bind_raised, commit_raised_nil]
      exact ⟨[], by simp, by simp, .faulted _ _ ⟨o, n, by simp [Instr.operands], hn, rfl, by simp [Instr.opcode]⟩
        (by simp) (by simp)⟩
    · rw [e, Staged.bind_raised, commit_raised_nil]
      exact ⟨[], by simp, by simp, .faulted _ _ ⟨⟨o, by simp [Instr.operands], hr⟩, rfl⟩ (by simp) (by simp)⟩
  | arb o =>
    show ∃ reads, _ ∧ _ ∧ ExecResult _ s reads (execArb o s)
    unfold execArb
    rcases eval_cases o s with ⟨v, hv, e⟩ | ⟨n, hn, e⟩ | ⟨hr, e⟩
    · obtain ⟨l, hl, len, hin⟩ := readEvents_of_readsAs hv
      rw [e, Staged.bind_ok, hl]
      refine ⟨l, by omega, hin, ?_⟩
      rcases narrow_ok (.arb o) (s.rb.toInt + v.toInt) { s with trace := s.trace ++ l.map .read }
        (fun h => .inr (.inr ⟨o, v, rfl, hv, h⟩)) with ⟨r, h⟩ | ⟨h, hf, ho⟩
      · simp only [aluAdd, h, Staged.bind_ok]
        exact .plain (i := .arb o) _ r .cont (.inl rfl) (.inr ⟨o, rfl⟩)
          (.inr ⟨not_takenJump (by simp), rfl⟩) (by simp) (by simp)
      · simp only [aluAdd, h, Staged.bind_raised, commit_raised]
        exact .faulted _ _ ⟨hf, rfl, ho⟩ (by simp) (by simp)
    · rw [e, Staged.bind_raised, commit_raised_nil]
      exact ⟨[], by simp, by simp, .faulted _ _ ⟨o, n, by simp [Instr.operands], hn, rfl, by simp [Instr.opcode]⟩
        (by simp) (by simp)⟩
    · rw [e, Staged.bind_raised, commit_raised_nil]
      exact ⟨[], by simp, by simp, .faulted _ _ ⟨⟨o, by simp [Instr.operands], hr⟩, rfl⟩ (by simp) (by simp)⟩
  | hlt => exact ⟨[], by simp, by simp, .halted rfl rfl⟩
  | invalid c =>
    refine ⟨[], by simp, by simp, ?_⟩
    show ExecResult _ s [] (execInvalid c s)
    unfold execInvalid
    rw [commit_raised_nil]
    cases c <;> exact .faulted _ _ ⟨rfl, rfl⟩ (by simp) (by simp)

/-- A state is live, halted or faulted. -/
theorem live_or_terminal (s : State) : s.Live ∨ s.status.state = .halted ∨ s.status.state = .faulted := by
  unfold State.Live
  cases s.status.state <;> simp

end Sys2Proof.Machine
end

