-- ==== Sys2Proof/Laws/PerInstr.lean ====
section
/-! SUPPORT. Facts made instruction by instruction: the length of a canonical encoding is the instruction's width
(spec/30_encoding.md R66, R78), and exactly the well-formed instructions have one. -/

namespace Sys2Proof.Laws

/-- As many parameter cells as operands. -/
theorem payloads_length {os : List Operand} {ps : List Word} (h : payloads os = some ps) : ps.length = os.length := by
  induction os generalizing ps with
  | nil => cases h; rfl
  | cons o os ih =>
    rw [payloads] at h
    split at h
    · next p ps' hp hps =>
      cases h
      simp [ih hps]
    · cases h

/-- An encoding is as long as the instruction is wide. -/
theorem encode_length {i : Instr} {cells : List Word} (h : encode i = some cells) : cells.length = i.width := by
  rw [encode] at h
  split at h
  · next o m ps ho hm hps =>
    cases h
    rw [Instr.width_of_opcode ho, List.length_cons, payloads_length hps, Instr.operands_length ho, Nat.add_comm]
  · cases h

/-- Operands with mode digits are the well-formed ones. -/
theorem modeSum_isSome (os : List Operand) (place : Nat) : (modeSum place os).isSome = os.all Operand.wf := by
  induction os generalizing place with
  | nil => rfl
  | cons o os ih =>
    have h := ih (10 * place)
    cases hr : modeSum (10 * place) os <;> rw [hr] at h <;>
      cases o <;> simp_all [modeSum, Operand.modeDigit, Operand.wf]

/-- Operands with payloads are the well-formed ones. -/
theorem payloads_isSome (os : List Operand) : (payloads os).isSome = os.all Operand.wf := by
  induction os with
  | nil => rfl
  | cons o os ih =>
    cases hr : payloads os <;> rw [hr] at ih <;> cases o <;> simp_all [payloads, Operand.payload, Operand.wf]

/-- Exactly the well-formed instructions have an encoding. -/
theorem encode_isSome (i : Instr) : (encode i).isSome = i.wf := by
  have hm := modeSum_isSome i.operands 100
  have hp := payloads_isSome i.operands
  cases h1 : modeSum 100 i.operands <;> cases h2 : payloads i.operands <;> rw [h1] at hm <;> rw [h2] at hp <;>
    cases i <;> simp_all [encode, Instr.opcode, Instr.operands, Instr.wf]

/-- The encoding of the instruction, where it has one, is as long as the instruction is wide. -/
def EncodingLength.Statement (i : Instr) : Prop := ∀ cells, encode i = some cells → cells.length = i.width

theorem EncodingLength.add (s1 s2 d : Operand) : EncodingLength.Statement (.add s1 s2 d) := fun _ => encode_length
theorem EncodingLength.mul (s1 s2 d : Operand) : EncodingLength.Statement (.mul s1 s2 d) := fun _ => encode_length
theorem EncodingLength.inp (d : Operand) : EncodingLength.Statement (.inp d) := fun _ => encode_length
theorem EncodingLength.out (s1 : Operand) : EncodingLength.Statement (.out s1) := fun _ => encode_length
theorem EncodingLength.jit (c t : Operand) : EncodingLength.Statement (.jit c t) := fun _ => encode_length
theorem EncodingLength.jif (c t : Operand) : EncodingLength.Statement (.jif c t) := fun _ => encode_length
theorem EncodingLength.lt (s1 s2 d : Operand) : EncodingLength.Statement (.lt s1 s2 d) := fun _ => encode_length
theorem EncodingLength.eq (s1 s2 d : Operand) : EncodingLength.Statement (.eq s1 s2 d) := fun _ => encode_length
theorem EncodingLength.arb (s1 : Operand) : EncodingLength.Statement (.arb s1) := fun _ => encode_length
theorem EncodingLength.hlt : EncodingLength.Statement .hlt := fun _ => encode_length
theorem EncodingLength.invalid (cause : DecodeCause) : EncodingLength.Statement (.invalid cause) := fun _ => encode_length

/-- The instruction has a canonical encoding exactly if it is well formed. -/
def EncodesWellFormed.Statement (i : Instr) : Prop := (encode i).isSome = i.wf

theorem EncodesWellFormed.add (s1 s2 d : Operand) : EncodesWellFormed.Statement (.add s1 s2 d) := encode_isSome _
theorem EncodesWellFormed.mul (s1 s2 d : Operand) : EncodesWellFormed.Statement (.mul s1 s2 d) := encode_isSome _
theorem EncodesWellFormed.inp (d : Operand) : EncodesWellFormed.Statement (.inp d) := encode_isSome _
theorem EncodesWellFormed.out (s1 : Operand) : EncodesWellFormed.Statement (.out s1) := encode_isSome _
theorem EncodesWellFormed.jit (c t : Operand) : EncodesWellFormed.Statement (.jit c t) := encode_isSome _
theorem EncodesWellFormed.jif (c t : Operand) : EncodesWellFormed.Statement (.jif c t) := encode_isSome _
theorem EncodesWellFormed.lt (s1 s2 d : Operand) : EncodesWellFormed.Statement (.lt s1 s2 d) := encode_isSome _
theorem EncodesWellFormed.eq (s1 s2 d : Operand) : EncodesWellFormed.Statement (.eq s1 s2 d) := encode_isSome _
theorem EncodesWellFormed.arb (s1 : Operand) : EncodesWellFormed.Statement (.arb s1) := encode_isSome _
theorem EncodesWellFormed.hlt : EncodesWellFormed.Statement .hlt := encode_isSome _
theorem EncodesWellFormed.invalid (cause : DecodeCause) : EncodesWellFormed.Statement (.invalid cause) := encode_isSome _

end Sys2Proof.Laws
end

