-- ==== Sys2Proof/Tests/Slice0.lean ====
section
/-! SUPPORT. Small tests, expected results from spec/95_test_vectors.md and the examples of the rules (the vector's name
stands in the comment), and for every obligation with hypotheses a witness that meets them. -/

namespace Sys2Proof.Tests

open Sys2Proof Sys2Proof.Machine

/-- An instance loaded under given parameters. -/
def bootWith (cfg : Config) (image inputs : List Word) : State :=
  match load cfg image inputs with
  | .next s => s
  | .fault _ => State.reset
  | .refused _ => State.reset

/-- An instance loaded under this hardware's parameters. -/
def boot (image inputs : List Word) : State := bootWith Config.hw image inputs

/-- The state a step ends in; the state before it if it gave none. -/
def after (s : State) : State :=
  match step s with
  | .next t => t
  | .fault _ => s
  | .refused _ => s

/-- The parameters with ARITH_OVERFLOW = fault. -/
def trapping : Config := { Config.hw with arithOverflow := .fault }

/-- The parameters with a memory of `n` cells. -/
def sized (n : Nat) : Config := { Config.hw with memSize := n }

/-! ### Well-formedness: an ill-formed term for each check -/

theorem test_wf_add_push : (Instr.add .push (.imm 1) (.pos 0)).wf = false := by decide
theorem test_wf_add_second : (Instr.add (.imm 1) .pop (.pos 0)).wf = false := by decide
theorem test_wf_add_dest : (Instr.add (.imm 1) (.imm 1) .push).wf = false := by decide
theorem test_wf_mul_pop : (Instr.mul (.imm 1) .pop (.pos 0)).wf = false := by decide
theorem test_wf_in_push : (Instr.inp .push).wf = false := by decide
theorem test_wf_out_pop : (Instr.out .pop).wf = false := by decide
theorem test_wf_jit_target : (Instr.jit (.imm 1) .push).wf = false := by decide
theorem test_wf_jif_condition : (Instr.jif .pop (.imm 1)).wf = false := by decide
theorem test_wf_lt_dest : (Instr.lt (.imm 1) (.imm 1) .pop).wf = false := by decide
theorem test_wf_eq_source : (Instr.eq .push (.imm 1) (.pos 0)).wf = false := by decide
theorem test_wf_arb_push : (Instr.arb .push).wf = false := by decide
theorem test_wf_invalid : (Instr.invalid .badMode).wf = false := by decide
theorem test_wf_imm_dest : (Instr.add (.rel 1) (.imm 1) (.imm 7)).wf = true := by decide

/-! ### Decoding: words written out digit by digit from the format C B A OP (30_encoding.md R59) -/

-- C = 0, B = 1, A = 1, OP = 01 (R81)
theorem test_decode_add : decodeCells false [1101, 100, -1, 4] = .add (.imm 100) (.imm (-1)) (.pos 4) := by decide
-- C = 0, B = 1, A = 0, OP = 02 (D-17)
theorem test_decode_mul : decodeCells false [1002, 4, 3, 4] = .mul (.pos 4) (.imm 3) (.pos 4) := by decide
-- A = 2, OP = 03 (R83)
theorem test_decode_in : decodeCells false [203, 5] = .inp (.rel 5) := by decide
-- A = 1, OP = 04 (R83), and the ignored high digits of D-19
theorem test_decode_out : decodeCells false [104, 7] = .out (.imm 7) := by decide
theorem test_decode_out_high : decodeCells false [1000004, 5] = .out (.pos 5) := by decide
-- B = 2, A = 1, OP = 05 (R82)
theorem test_decode_jit : decodeCells false [2105, 1, 0] = .jit (.imm 1) (.rel 0) := by decide
-- B = 1, A = 0, OP = 06 (R114)
theorem test_decode_jif : decodeCells false [1006, 11, 10] = .jif (.pos 11) (.imm 10) := by decide
-- C = 2, B = 1, A = 2, OP = 07 (P3)
theorem test_decode_lt : decodeCells false [21207, 1, 13, 2] = .lt (.rel 1) (.imm 13) (.rel 2) := by decide
-- C = 0, B = 1, A = 2, OP = 08 (P3)
theorem test_decode_eq : decodeCells false [1208, 1, 12, 23] = .eq (.rel 1) (.imm 12) (.pos 23) := by decide
-- A = 1, OP = 09 (R83)
theorem test_decode_arb : decodeCells false [109, -18] = .arb (.imm (-18)) := by decide
-- OP = 99 with ignored digits (D-8, D-18); strict refuses them (D-9)
theorem test_decode_hlt : decodeCells false [199] = .hlt ∧ decodeCells false [10099] = .hlt := by decide
theorem test_decode_hlt_strict : decodeCells true [199] = .invalid .badMode := by decide
-- D-1 to D-7, D-10, D-15
theorem test_decode_invalid : [42, 0, 100, 98, -1, 391].map (fun w => decodeCells false [w, 0, 0, 0]) =
    List.replicate 6 (.invalid .unknownOpcode) := by decide
theorem test_decode_bad_mode : [301, 30001].map (fun w => decodeCells false [w, 0, 0, 0]) =
    List.replicate 2 (.invalid .badMode) := by decide
theorem test_decode_truncated : decodeCells false [1, 0, 0] = .invalid .truncated := by decide

-- canonical encodings (R78): those of R81 and R82
theorem test_encode_add : encode (.add (.imm 100) (.imm (-1)) (.pos 4)) = some [1101, 100, -1, 4] := by decide
theorem test_encode_jit : encode (.jit (.imm 1) (.rel 0)) = some [2105, 1, 0] := by decide
theorem test_encode_reserved : encode (.out .push) = none := by decide

-- the table's number of a row, cell k in the bits from 64 k on: 1101, 100, 5, 4
theorem test_table_add : decodeTableWord 256 (1101 + 100 * 2 ^ 64 + 5 * 2 ^ 128 + 4 * 2 ^ 192) =
    some (.add (.imm 100) (.imm 5) (.pos 4)) := by decide
theorem test_table_out : decodeTableWord 8 4 = some (.out (.pos 0)) := by decide

-- the next step after reset runs the placed word: `out Pos(0)` outputs the word itself, 4
theorem test_placed_out : (after (State.reset.withFetchWord 8 4)).outcome = some (.output 4) := by decide
theorem test_placed_rows : [1, 2, 3, 4, 5, 6, 7, 8, 9, 99, 0].map
    (fun w => (State.reset.withFetchWord 64 w).decodeAt 0) =
    [.add (.pos 0) (.pos 0) (.pos 0), .mul (.pos 0) (.pos 0) (.pos 0), .inp (.pos 0), .out (.pos 0),
      .jit (.pos 0) (.pos 0), .jif (.pos 0) (.pos 0), .lt (.pos 0) (.pos 0) (.pos 0), .eq (.pos 0) (.pos 0) (.pos 0),
      .arb (.pos 0), .hlt, .invalid .unknownOpcode] := by decide

/-! ### Instructions, one step each -/

-- R109's example, S1: M[0] = 2, pc = 4, trace Fetch(0), Read(0), Read(0), Write(0)
theorem test_add_doubles : (after (boot [1, 0, 0, 0, 99] [])).mem.read 0 = 2 ∧
    (after (boot [1, 0, 0, 0, 99] [])).pc = 4 ∧
    (after (boot [1, 0, 0, 0, 99] [])).trace = [.fetch 0, .read 0, .read 0, .write 0] := by decide
-- A-2: wraps, and faults at pc 0 under ARITH_OVERFLOW = fault
theorem test_add_overflow : (after (boot [1101, 9223372036854775807, 1, 5, 99, 0] [])).mem.read 5 =
      -9223372036854775808 ∧
    (after (bootWith trapping [1101, 9223372036854775807, 1, 5, 99, 0] [])).status =
      { state := .faulted, cause := .efOverflow, info := none, faultPc := 0 } := by decide
-- A-13 (its step: operand 2 is Pos(-1)): fault record, the Read before it kept
theorem test_add_read_oob : (after (boot [1, 0, -1, 0, 99] [])).status =
      { state := .faulted, cause := .afReadOob, info := some (-1), faultPc := 0 } ∧
    (after (boot [1, 0, -1, 0, 99] [])).trace = [.fetch 0, .read 0] := by decide
-- R110's example: M[4] = 99, pc = 4
theorem test_mul_example : (after (boot [1002, 4, 3, 4, 33] [])).mem.read 4 = 99 ∧
    (after (boot [1002, 4, 3, 4, 33] [])).pc = 4 := by decide
-- A-7 and A-6
theorem test_mul_wraps : (after (boot [1102, 4294967296, 4294967296, 5, 99, 0] [])).mem.read 5 = 0 ∧
    (after (boot [1102, -9223372036854775808, -1, 5, 99, 0] [])).mem.read 5 = -9223372036854775808 := by decide
-- R111's example: M[0] = 42, Q empty, pc = 2
theorem test_in_example : (after (boot [3, 0, 4, 0, 99] [42])).mem.read 0 = 42 ∧
    (after (boot [3, 0, 4, 0, 99] [42])).queue = [] ∧ (after (boot [3, 0, 4, 0, 99] [42])).pc = 2 := by decide
-- I-4 and I-5: an immediate destination is examined only when Q is not empty, and the value stays in Q
theorem test_in_immediate : (after (boot [103, 0, 99] [])).outcome = some .needInput ∧
    (after (boot [103, 0, 99] [7])).outcome = some (.fault .afWriteImm none) ∧
    (after (boot [103, 0, 99] [7])).queue = [7] := by decide
-- I-7: Output(-5), pc = 2, no Read
theorem test_out_immediate : (after (boot [104, -5, 99] [])).outcome = some (.output (-5)) ∧
    (after (boot [104, -5, 99] [])).pc = 2 ∧ (after (boot [104, -5, 99] [])).trace = [.fetch 0] := by decide
-- B-6: the exact address 2^63, after `arb Imm(2^63 - 1)`
theorem test_out_far : (after (after (boot [109, 9223372036854775807, 204, 1, 99] []))).outcome =
    some (.fault .afReadOob (some 9223372036854775808)) := by decide
-- J-1 and J-2
theorem test_jit : (after (boot [1105, 1, 4, 0, 99] [])).pc = 4 ∧ (after (boot [1105, 0, 4, 99] [])).pc = 3 := by decide
-- J-7 and J-8: the untaken target under lazy and eager
theorem test_jit_target_eval : (after (boot [105, 0, -5, 99] [])).pc = 3 ∧
    (after (bootWith { Config.hw with jumpTargetEval := .eager } [105, 0, -5, 99] [])).status =
      { state := .faulted, cause := .afReadOob, info := some (-5), faultPc := 0 } := by decide
-- J-3 and J-4
theorem test_jif : (after (boot [1106, 0, 4, 0, 99] [])).pc = 4 ∧ (after (boot [1106, -1, 4, 99] [])).pc = 3 := by decide
-- J-11
theorem test_jif_pos : (after (boot [6, 5, 6, 99, 99, 0, 4] [])).pc = 4 ∧
    (after (boot [6, 5, 6, 99, 99, 0, 4] [])).trace = [.fetch 0, .read 5, .read 6] := by decide
-- C-4 and C-6: the order is signed
theorem test_lt_signed : (after (boot [1107, -1, 0, 5, 99, 0] [])).mem.read 5 = 1 ∧
    (after (boot [1107, 9223372036854775807, -9223372036854775808, 5, 99, 0] [])).mem.read 5 = 0 := by decide
-- C-8 and C-11
theorem test_eq : (after (boot [1108, 5, -5, 5, 99, 0] [])).mem.read 5 = 0 ∧
    (after (boot [8, 5, 5, 5, 99, 9] [])).mem.read 5 = 1 := by decide
-- B-1 and B-4: the Rel operand is read with the old rb
theorem test_arb : (after (boot [109, 20, 99] [])).rb = 20 ∧
    (after (after (boot [109, 2, 209, -1, 99] []))).rb = 4 := by decide
-- R118's example and H-2
theorem test_hlt : (after (boot [99] [1, 2])).outcome = some .halted ∧ (after (boot [99] [1, 2])).queue = [1, 2] ∧
    (after (boot [99] [1, 2])).pc = 0 := by decide
-- R119's example, and H-3: the second step emits no Fetch
theorem test_invalid : (after (boot [42] [])).outcome = some (.fault .dfUnknownOpcode (some 0)) ∧
    (after (after (boot [42] []))).trace = [.fetch 0] := by decide
-- D-11: a fetch past the last cell
theorem test_fetch_oob : (after (after (bootWith (sized 4) [1, 0, 0, 0] []))).outcome =
    some (.fault .dfFetchOob (some 4)) := by decide
-- D-12: decode comes before the queue check
theorem test_truncated_in : (after (bootWith (sized 1) [3] [])).outcome = some (.fault .dfTruncated (some 0)) := by decide
-- A-12: a write to the instruction's own parameter cell goes to the latched destination
theorem test_latched_destination : (after (boot [1101, 7, 0, 3, 99] [])).mem.read 3 = 7 := by decide
-- S2 under `map`: the output is 42
theorem test_map_echo : (match map 3 [42] (boot [3, 0, 4, 0, 99] []) with
    | .next (_, outs, o) => decide (outs = [42] ∧ o = some .halted)
    | .fault _ => false
    | .refused _ => false) = true := by decide
-- D-14: an image that is too long
theorem test_load_too_long : (match load (sized 4) [1, 0, 0, 0, 99] [] with
    | .next _ => false
    | .fault _ => false
    | .refused r => decide (r = .programTooLong)) = true := by decide
-- R82 in the assembler's two forms (R76)
theorem test_assembly : (Instr.jit (.imm 1) (.rel 0)).asm = "jit Imm(1), Rel(0)" ∧
    (Instr.jit (.imm 1) (.rel 0)).term = "Jit(Imm(1), Rel(0))" := by decide
-- A-12's step is a self-modifying write; the next fetch of cell 3 would be flagged (R137)
theorem test_observer : selfModifyingFetch { after (boot [1101, 7, 0, 3, 99] []) with pc := 0 } = true ∧
    selfModifyingFetch (after (boot [1101, 7, 0, 3, 99] [])) = false := by decide

/-! ### Witnesses: for each clause with hypotheses, a state and operands that meet them all, at the edges of the ranges -/

/-- Eight cells 10, …, 17, with rb = 3: `rel 4` is the last cell, `rel (-3)` the first, `rel 5` and `rel (-4)` the two
addresses next to memory. -/
def eight : State := { bootWith (sized 8) [10, 11, 12, 13, 14, 15, 16, 17] [] with rb := 3 }

/-- The same under ARITH_OVERFLOW = fault and JUMP_TARGET_EVAL = eager. -/
def eightStrict : State :=
  { eight with cfg := { eight.cfg with arithOverflow := .fault, jumpTargetEval := .eager } }

/-- An instance of eight cells. -/
def tiny (image inputs : List Word) : State := bootWith (sized 8) image inputs

theorem reads_imm (s : State) (v : Word) : ReadsAs s (.imm v) v := rfl
theorem reads_pos_first : ReadsAs eight (.pos 0) 10 := And.intro (by decide) (by decide)
theorem reads_pos_last : ReadsAs eight (.pos 7) 17 := And.intro (by decide) (by decide)
theorem reads_rel_first : ReadsAs eight (.rel (-3)) 10 := And.intro (by decide) (by decide)
theorem reads_rel_last : ReadsAs eight (.rel 4) 17 := And.intro (by decide) (by decide)
theorem writes_pos_last : WritesTo eight (.pos 7) 7 := And.intro rfl (by decide)
theorem writes_rel_first : WritesTo eight (.rel (-3)) 0 := And.intro rfl (by decide)
theorem out_pos_above : OutOfRange eight (.pos 8) 8 := And.intro rfl (by decide)
theorem out_pos_below : OutOfRange eight (.pos (-1)) (-1) := And.intro rfl (by decide)
theorem out_rel_above : OutOfRange eight (.rel 5) 8 := And.intro rfl (by decide)
theorem out_rel_below : OutOfRange eight (.rel (-4)) (-1) := And.intro rfl (by decide)

-- DecoderChecksInOrder, clause by clause
theorem witness_decode_fetch_oob : ¬ (0 ≤ (-1 : Int) ∧ (-1 : Int) < eight.cfg.memSize) ∧
    ¬ (0 ≤ (8 : Int) ∧ (8 : Int) < eight.cfg.memSize) := by decide
theorem witness_decode_negative : (0 : Int) ≤ 7 ∧ (7 : Int) < (tiny [0, 0, 0, 0, 0, 0, 0, -1] []).cfg.memSize ∧
    ((tiny [0, 0, 0, 0, 0, 0, 0, -1] []).mem.read (7 : Int).toNat).toInt < 0 := by decide
theorem witness_decode_unknown : (0 : Int) ≤ 0 ∧ (0 : Int) < (tiny [] []).cfg.memSize ∧
    0 ≤ ((tiny [] []).mem.read (0 : Int).toNat).toInt ∧
    ((tiny [] []).mem.read (0 : Int).toNat).toNat % 100 ∉ [1, 2, 3, 4, 5, 6, 7, 8, 9, 99] := by decide
theorem witness_decode_bad_mode : (0 : Int) ≤ 7 ∧ (7 : Int) < (tiny [0, 0, 0, 0, 0, 0, 0, 30001] []).cfg.memSize ∧
    0 ≤ (30001 : Word).toInt ∧ (tiny [0, 0, 0, 0, 0, 0, 0, 30001] []).mem.read (7 : Int).toNat = 30001 ∧
    Opcode.add.number = (30001 : Word).toNat % 100 ∧ 1 ≤ 3 ∧ 3 ≤ Opcode.add.nparams ∧
    3 ≤ digit (30001 : Word).toNat (3 + 1) := by decide
theorem witness_decode_strict : 0 ≤ (199 : Word).toInt ∧ Opcode.hlt.number = (199 : Word).toNat % 100 ∧
    (bootWith { sized 8 with strictDecode := true } [199] []).mem.read (0 : Int).toNat = 199 ∧
    (bootWith { sized 8 with strictDecode := true } [199] []).cfg.strictDecode = true ∧
    (199 : Word).toNat / 10 ^ (Opcode.hlt.nparams + 2) ≠ 0 := by decide
theorem witness_decode_truncated : (∀ k, 1 ≤ k → k ≤ Opcode.out.nparams → digit (4 : Word).toNat (k + 1) < 3) ∧
    (tiny [0, 0, 0, 0, 0, 0, 0, 4] []).mem.read (7 : Int).toNat = 4 ∧ Opcode.out.number = (4 : Word).toNat % 100 ∧
    ((tiny [0, 0, 0, 0, 0, 0, 0, 4] []).cfg.memSize : Int) ≤ 7 + Opcode.out.nparams := by
  refine And.intro ?_ (by decide)
  intro k h1 h2
  have : k = 1 := by have : Opcode.out.nparams = 1 := rfl; omega
  subst this; decide
theorem witness_decode_fits : (∀ k, 1 ≤ k → k ≤ Opcode.out.nparams → digit (4 : Word).toNat (k + 1) < 3) ∧
    (tiny [0, 0, 0, 0, 0, 0, 4, 9] []).mem.read (6 : Int).toNat = 4 ∧ Opcode.out.number = (4 : Word).toNat % 100 ∧
    6 + (Opcode.out.nparams : Int) < (tiny [0, 0, 0, 0, 0, 0, 4, 9] []).cfg.memSize :=
  And.intro witness_decode_truncated.1 (by decide)

-- DecodeOfEncodeIsTheInstruction, EncodeOfCanonicalWordIsItsCells
theorem witness_round_trip : (Instr.add (.imm (-9223372036854775808)) (.pos 9223372036854775807) (.rel (-1))).wf = true ∧
    Instr.hlt.wf = true := by decide
theorem witness_canonical_word : decode true (some 22209) (some 1) (some 2) (some 3) = .invalid .badMode ∧
    decode true (some 22208) (some 1) (some 2) (some 3) = .eq (.rel 1) (.rel 2) (.rel 3) ∧
    (Instr.eq (.rel 1) (.rel 2) (.rel 3)).wf = true ∧
    decode true (some 99) (some 1) (some 2) (some 3) = .hlt ∧ Instr.hlt.wf = true := by decide
-- HighDigitsIgnoredUnlessStrict: the first digit that no parameter uses
theorem witness_high_digits : 0 ≤ (104 : Word).toInt ∧ 0 ≤ (1104 : Word).toInt ∧
    Opcode.out.number = (104 : Word).toNat % 100 ∧
    (104 : Word).toNat % 10 ^ (Opcode.out.nparams + 2) = (1104 : Word).toNat % 10 ^ (Opcode.out.nparams + 2) ∧
    (1104 : Word).toNat / 10 ^ (Opcode.out.nparams + 2) ≠ 0 := by decide
-- DecoderNeverYieldsReservedOperands
theorem witness_reserved : Reserved .push ∧ Reserved .pop := by decide
-- DecodeReadsOnlyItsOwnCells: an `out` in the last two cells, the others changed
theorem witness_own_cells : (tiny [5, 6, 0, 0, 0, 0, 104, 9] []).cfg = (tiny [0, 0, 0, 0, 0, 0, 104, 9] []).cfg ∧
    ((tiny [0, 0, 0, 0, 0, 0, 104, 9] []).decodeAt 6).wf = true ∧
    ((tiny [0, 0, 0, 0, 0, 0, 104, 9] []).decodeAt 6).width = 2 ∧
    ∀ k : Nat, k < 2 → (tiny [5, 6, 0, 0, 0, 0, 104, 9] []).mem.read (6 + (k : Int)).toNat =
      (tiny [0, 0, 0, 0, 0, 0, 104, 9] []).mem.read (6 + (k : Int)).toNat := by decide

-- EvalReadsByMode and StoreWritesOneCell: the first and the last cell, and the two addresses next to memory
theorem witness_ranges : eight.InRange (0 : Word).toInt ∧ eight.InRange (7 : Word).toInt ∧
    ¬ eight.InRange (-1 : Word).toInt ∧ ¬ eight.InRange (8 : Word).toInt ∧
    eight.InRange (eight.rb.toInt + (-3 : Word).toInt) ∧ eight.InRange (eight.rb.toInt + (4 : Word).toInt) ∧
    ¬ eight.InRange (eight.rb.toInt + (-4 : Word).toInt) ∧ ¬ eight.InRange (eight.rb.toInt + (5 : Word).toInt) ∧
    ¬ eight.InRange (eight.rb.toInt + (9223372036854775807 : Word).toInt) := by decide
theorem witness_store_operand : ∃ o : Word, Operand.rel 4 = .rel o ∧ (7 : Int) = eight.rb.toInt + o.toInt :=
  Exists.intro 4 (by decide)
-- CanonicalMemoriesThatReadAlikeAreEqual
theorem witness_canonical : eight.mem.wf ∧ (Memory.write (Memory.write eight.mem 3 0) 3 13).wf ∧
    ∀ a, a < 8 → eight.mem.read a = (Memory.write (Memory.write eight.mem 3 0) 3 13).read a := by decide
-- WrapIsTheCongruentValue: 2^63 is congruent to −2^63
theorem witness_wrap : InI64 (-9223372036854775808) ∧
    ((-9223372036854775808 : Int) - 9223372036854775808) % 2 ^ 64 = 0 := by decide

-- AluNarrowsExactResults: the last results in range and the first outside
theorem witness_alu_in_range : InI64 ((9223372036854775806 : Word).toInt + (1 : Word).toInt) ∧
    InI64 ((-9223372036854775807 : Word).toInt + (-1 : Word).toInt) ∧
    InI64 ((-4611686018427387904 : Word).toInt * (2 : Word).toInt) := by decide
theorem witness_alu_overflow : ¬ InI64 ((9223372036854775807 : Word).toInt + (1 : Word).toInt) ∧
    ¬ InI64 ((4611686018427387904 : Word).toInt * (2 : Word).toInt) ∧ eight.cfg.arithOverflow = .wrap ∧
    eightStrict.cfg.arithOverflow = .fault := by decide
-- AluComparesSignedValues
theorem witness_compare : (-1 : Word).toInt < (0 : Word).toInt ∧ (-1 : Word).toInt ≤ (-1 : Word).toInt ∧
    (7 : Word).toInt = (7 : Word).toInt ∧ (5 : Word).toInt ≠ (-5 : Word).toInt := by decide

-- BinaryRule and OverflowTraps, for add, mul, lt and eq
theorem witness_binary_stores : ReadsAs eight (.pos 0) 10 ∧ ReadsAs eight (.rel 4) 17 ∧
    ¬ (eight.cfg.arithOverflow = .fault ∧ ¬ InI64 ((10 : Word).toInt + (17 : Word).toInt)) ∧
    ¬ (eight.cfg.arithOverflow = .fault ∧ ¬ InI64 ((10 : Word).toInt * (17 : Word).toInt)) ∧ ¬ False ∧
    WritesTo eight (.pos 7) 7 :=
  And.intro reads_pos_first (And.intro reads_rel_last (And.intro (by decide) (And.intro (by decide)
    (And.intro (by decide) writes_pos_last))))
theorem witness_binary_stores_wrapped : ReadsAs eight (.imm 9223372036854775807) 9223372036854775807 ∧
    ReadsAs eight (.imm 2) 2 ∧ ¬ InI64 ((9223372036854775807 : Word).toInt * (2 : Word).toInt) ∧
    eight.cfg.arithOverflow ≠ .fault ∧ WritesTo eight (.rel (-3)) 0 :=
  And.intro rfl (And.intro rfl (And.intro (by decide) (And.intro (by decide) writes_rel_first)))
theorem witness_binary_faults : ReadsAs eight (.pos 0) 10 ∧ OutOfRange eight (.pos 8) 8 ∧
    OutOfRange eight (.rel (-4)) (-1) ∧ Operand.imm 7 = .imm 7 ∧ Reserved .push :=
  And.intro reads_pos_first (And.intro out_pos_above (And.intro out_rel_below (And.intro rfl (by decide))))
theorem witness_overflow_traps : ReadsAs eightStrict (.imm 9223372036854775807) 9223372036854775807 ∧
    ReadsAs eightStrict (.imm 2) 2 ∧ eightStrict.cfg.arithOverflow = .fault ∧
    ¬ InI64 ((9223372036854775807 : Word).toInt + (2 : Word).toInt) ∧
    ¬ InI64 ((9223372036854775807 : Word).toInt * (2 : Word).toInt) :=
  And.intro rfl (And.intro rfl (by decide))

-- InTakesTheHeadOfTheQueue, OutDeliversTheValue
theorem witness_in_empty : eight.queue = [] := by decide
theorem witness_in : { eight with queue := [5, 6] }.queue = [5, 6] ∧ WritesTo { eight with queue := [5, 6] } (.pos 7) 7 ∧
    Operand.imm 1 = .imm 1 ∧ OutOfRange { eight with queue := [5, 6] } (.rel 5) 8 ∧ Reserved .pop :=
  And.intro rfl (And.intro writes_pos_last (And.intro rfl (And.intro out_rel_above (by decide))))
theorem witness_out : ReadsAs eight (.rel (-3)) 10 ∧ OutOfRange eight (.pos (-1)) (-1) ∧ Reserved .push :=
  And.intro reads_rel_first (And.intro out_pos_below (by decide))

-- JumpRule: both senses of the test (jit and jif take each the other's), both settings of JUMP_TARGET_EVAL
theorem witness_jump_operands : ReadsAs eight (.imm 1) 1 ∧ ReadsAs eight (.imm 0) 0 ∧ (1 : Word).toInt ≠ 0 ∧
    (0 : Word).toInt = 0 ∧ ¬ (0 : Word).toInt ≠ 0 ∧ ¬ (1 : Word).toInt = 0 ∧ ReadsAs eight (.pos 7) 17 :=
  And.intro rfl (And.intro rfl (And.intro (by decide) (And.intro (by decide) (And.intro (by decide)
    (And.intro (by decide) reads_pos_last)))))
theorem witness_jump_lazy : eight.cfg.jumpTargetEval = .lazy ∧ OutOfRange eight (.pos 8) 8 ∧ Reserved .push :=
  And.intro rfl (And.intro out_pos_above (by decide))
theorem witness_jump_eager : eightStrict.cfg.jumpTargetEval = .eager ∧ ReadsAs eightStrict (.imm 0) 0 ∧
    ReadsAs eightStrict (.imm 1) 1 ∧ ReadsAs eightStrict (.pos 7) 17 ∧ OutOfRange eightStrict (.pos (-1)) (-1) :=
  And.intro rfl (And.intro rfl (And.intro rfl (And.intro reads_pos_last out_pos_below)))

-- ArbAddsToTheRelativeBase, ArbShiftsLaterRelativeOperands: sums on both sides of the range's edge
theorem witness_arb : ReadsAs eight (.rel 4) 17 ∧ InI64 (eight.rb.toInt + (17 : Word).toInt) ∧
    InI64 (eight.rb.toInt + (9223372036854775804 : Word).toInt) ∧ OutOfRange eight (.rel 5) 8 ∧ Reserved .pop :=
  And.intro reads_rel_last (And.intro (by decide) (And.intro (by decide) (And.intro out_rel_above (by decide))))
theorem witness_arb_overflow : ReadsAs eightStrict (.imm 9223372036854775805) 9223372036854775805 ∧
    ¬ InI64 (eightStrict.rb.toInt + (9223372036854775805 : Word).toInt) ∧ eightStrict.cfg.arithOverflow = .fault ∧
    eight.cfg.arithOverflow = .wrap :=
  And.intro rfl (by decide)
-- HltHaltsInPlace, InvalidFaultsInPlace
theorem witness_hlt_word : 0 ≤ (9223372036854775799 : Word).toInt ∧ (9223372036854775799 : Word).toNat % 100 = 99 ∧
    0 ≤ (99 : Word).toInt ∧ (99 : Word).toNat % 100 = 99 := by decide
theorem witness_invalid : (tiny [0] []).Live ∧ (tiny [0] []).decodeAt (tiny [0] []).pc.toInt = .invalid .unknownOpcode ∧
    (tiny [301, 0] []).decodeAt (tiny [301, 0] []).pc.toInt = .invalid .badMode ∧
    (bootWith (sized 1) [3] []).decodeAt (bootWith (sized 1) [3] []).pc.toInt = .invalid .truncated ∧
    { tiny [] [] with pc := 8 }.decodeAt (8 : Word).toInt = .invalid .fetchOob := by decide
-- IdiomsDoWhatTheyAreListedFor: the negation at the edge, and where it wraps
theorem witness_idioms : ReadsAs eight (.rel 4) 17 ∧ WritesTo eight (.pos 7) 7 ∧
    ((-9223372036854775807 : Word).toInt ≠ -(2 ^ 63)) ∧ eight.cfg.arithOverflow = .wrap ∧ eight.InRange eight.rb.toInt :=
  And.intro reads_rel_last (And.intro writes_pos_last (by decide))

/-! The steps' witnesses: a state of each run state, each with its invariant. -/

/-- The echo program of R111, with no input. -/
def echo : State := tiny [3, 0, 4, 0, 99] []

-- StepRunsTheDecodedInstruction and the others from a state that fetches: RUN and WAIT_INPUT
theorem witness_live : echo.Live ∧ (after echo).Live ∧ (after echo).status.state = .waitInput := by decide
-- TerminalStatesAbsorb
theorem witness_terminal : (after (tiny [99] [])).status.state = .halted ∧
    (after (tiny [42] [])).status.state = .faulted := by decide
-- FetchOutsideMemoryFaults: the first address past memory, and −1
theorem witness_fetch_outside : { echo with pc := 8 }.Live ∧
    ¬ (0 ≤ (8 : Word).toInt ∧ (8 : Word).toInt < echo.cfg.memSize) ∧
    ¬ (0 ≤ (-1 : Word).toInt ∧ (-1 : Word).toInt < echo.cfg.memSize) := by decide

/-- A faulting state of each cause that a step can record. -/
def faulting : List State :=
  [{ echo with pc := 8 }, tiny [42] [], tiny [304, 0] [], tiny [104] [] |> fun s => { s with cfg := sized 1 },
    tiny [4, 8] [], tiny [1101, 1, 1, 8] [], tiny [103, 1] [5],
    { tiny [1101, 9223372036854775807, 1, 0] [] with cfg := { sized 8 with arithOverflow := .fault } }]

-- FaultsArePrecise, FaultRecordMatchesItsCause
theorem witness_faults : faulting.map (fun s => (after s).status.cause) =
      [.dfFetchOob, .dfUnknownOpcode, .dfBadMode, .dfTruncated, .afReadOob, .afWriteOob, .afWriteImm, .efOverflow] ∧
    (∀ s ∈ faulting, s.Live) ∧ ∀ s ∈ faulting, (after s).status.state = .faulted := by decide
theorem witness_step_faults : step (tiny [4, 8] []) = .next (after (tiny [4, 8] [])) := rfl

-- PcChangesByTheTable: a taken jump, an untaken one, and a suspension
theorem witness_pc : (sized 8).Legal ∧ (tiny [1105, 1, 7] []).Live ∧ (after (tiny [1105, 1, 7] [])).status.state = .run ∧
    (after (tiny [1105, 0, 7] [])).status.state = .run ∧ (after echo).status.state ≠ .run := by decide
theorem witness_taken : step (tiny [1105, 1, 7] []) = .next (after (tiny [1105, 1, 7] [])) ∧
    TakenJump (tiny [1105, 1, 7] []) ((tiny [1105, 1, 7] []).decodeAt (tiny [1105, 1, 7] []).pc.toInt) (.imm 7) :=
  And.intro rfl (Exists.intro (.imm 1) (Exists.intro 1 (And.intro rfl (Or.inl (by decide)))))
theorem witness_untaken : step (tiny [1105, 0, 7] []) = .next (after (tiny [1105, 0, 7] [])) ∧
    ∀ o, ¬ TakenJump (tiny [1105, 0, 7] []) ((tiny [1105, 0, 7] []).decodeAt (tiny [1105, 0, 7] []).pc.toInt) o := by
  refine And.intro rfl ?_
  intro o h
  have hd : (tiny [1105, 0, 7] []).decodeAt (tiny [1105, 0, 7] []).pc.toInt = .jit (.imm 0) (.imm 7) := by decide
  rw [hd] at h
  obtain ⟨c, x, hx, ⟨he, hn⟩ | ⟨he, _⟩⟩ := h
  · cases he; exact hn hx
  · cases he
-- RegistersChangeOnlyByTheirInstructions: rb changed by `arb`, Q by `in`
theorem witness_registers : step (tiny [109, 5] []) = .next (after (tiny [109, 5] [])) ∧
    (after (tiny [109, 5] [])).rb ≠ (tiny [109, 5] []).rb ∧
    step (tiny [3, 0] [7]) = .next (after (tiny [3, 0] [7])) ∧
    (after (tiny [3, 0] [7])).queue ≠ (tiny [3, 0] [7]).queue :=
  And.intro rfl (And.intro (by decide) (And.intro rfl (by decide)))

/-- A trace of one Fetch meets the invariant's clause on traced accesses. -/
theorem fetch_only {s : State} {b : Int} (h : s.trace = [.fetch b]) (a : Int) :
    .read a ∈ s.trace ∨ .write a ∈ s.trace → s.InRange a := by
  rw [h]; intro ha; simp at ha

-- RunStateChangesByTheTable, EveryStepKeepsTheInvariant: the invariant in a state of each run state
theorem witness_inv_run : echo.Inv where
  legal := by decide
  memCanonical := by decide
  memBounded := by decide
  recordClear := by decide
  recordSet := by decide
  suspendedAtIn := fun h => absurd h (by decide)
  haltedAtHlt := by decide
  outcomeMatches := Or.inl rfl
  tracedInRange := fun _ h => h.elim (fun h => absurd h (List.not_mem_nil)) (fun h => absurd h (List.not_mem_nil))
theorem witness_inv_suspended : (after echo).Inv where
  legal := by decide
  memCanonical := by decide
  memBounded := by decide
  recordClear := by decide
  recordSet := by decide
  suspendedAtIn := fun _ => Exists.intro (.pos 0) (by decide)
  haltedAtHlt := by decide
  outcomeMatches := rfl
  tracedInRange := fetch_only (b := 0) (by decide)
theorem witness_inv_halted : (after (tiny [99] [])).Inv where
  legal := by decide
  memCanonical := by decide
  memBounded := by decide
  recordClear := by decide
  recordSet := by decide
  suspendedAtIn := fun h => absurd h (by decide)
  haltedAtHlt := by decide
  outcomeMatches := rfl
  tracedInRange := fetch_only (b := 0) (by decide)
theorem witness_inv_faulted : (after (tiny [4, 8] [])).Inv where
  legal := by decide
  memCanonical := by decide
  memBounded := by decide
  recordClear := by decide
  recordSet := by decide
  suspendedAtIn := fun h => absurd h (by decide)
  haltedAtHlt := by decide
  outcomeMatches := rfl
  tracedInRange := fetch_only (b := 0) (by decide)
theorem witness_inv_steps : step echo = .next (after echo) ∧ step (after echo) = .next (after (after echo)) ∧
    step (after (tiny [99] [])) = .next (after (after (tiny [99] []))) ∧
    (after ((after echo).appendInputs [9])).status.state = .run :=
  And.intro rfl (And.intro rfl (And.intro rfl (by decide)))

-- SuspendedInputCompletesOnceSupplied: at the last cell, with the destination in cell 0
theorem witness_suspended : echo.Live ∧ echo.decodeAt echo.pc.toInt = .inp (.pos 0) ∧ echo.queue = [] ∧
    WritesTo echo (.pos 0) 0 :=
  And.intro (by decide) (And.intro (by decide) (And.intro rfl (And.intro rfl (by decide))))
-- StepTracesItsAccesses, CellsChangeOnlyWhereTraced
theorem witness_traced : step (tiny [1, 7, 7, 7] []) = .next (after (tiny [1, 7, 7, 7] [])) ∧
    step (tiny [1002, 7, 7, 7, 0, 0, 0, 3] []) = .next (after (tiny [1002, 7, 7, 7, 0, 0, 0, 3] [])) ∧
    (after (tiny [1002, 7, 7, 7, 0, 0, 0, 3] [])).mem.read 7 ≠ (tiny [1002, 7, 7, 7, 0, 0, 0, 3] []).mem.read 7 ∧
    (after echo).status.state ≠ .run ∧ ¬ (after (tiny [99] [])).Live :=
  And.intro rfl (And.intro rfl (by decide))
-- LoadAndInputKeepTheInvariant, LoadPlacesTheImage: an image that fills memory, and one cell more
theorem witness_load : (sized 4).Legal ∧ [1, 0, 0, (99 : Word)].length ≤ (sized 4).memSize ∧
    (sized 4).memSize < [1, 0, 0, 0, (99 : Word)].length := by decide
-- TracePortNeverChangesExecution: a trace and an outcome of its own
theorem witness_trace_port : SameMachine echo { echo with trace := [.read 5], outcome := some .cont } ∧
    step echo = .next (after echo) :=
  And.intro (by unfold SameMachine; decide) rfl
-- AppendedInputWaitsItsTurn
theorem witness_appended : step (tiny [3, 0] [7]) = .next (after (tiny [3, 0] [7])) ∧
    (after (tiny [3, 0] [7])).outcome ≠ some .needInput :=
  And.intro rfl (by decide)

/-- An `add`, then `out` of its sum, then `hlt`. -/
def addOut : State := bootWith (sized 16) [1101, 2, 3, 7, 4, 7, 99, 0] []

-- RunReturnsTheFirstSignal: two steps, the second an output
theorem witness_run : run 2 none addOut = .next (after (after addOut), some (.output 5)) := rfl
-- MapCollectsOutputsInOrder and ResumedRunsEndAlike: to the halt, and out of input
theorem witness_map : map 3 [] addOut = .next (after (after (after addOut)), [5], some .halted) := rfl
theorem witness_map_underflow : map 1 [] echo = .fault .inputUnderflow := rfl
theorem witness_resumed : ∃ t u, map 3 [42] (tiny [3, 0, 4, 0, 99] []) = .next (t, [42], some .halted) ∧
    feedOnDemand 4 [42] (tiny [3, 0, 4, 0, 99] []) = .next (u, [42], some .halted) :=
  Exists.intro _ (Exists.intro _ (And.intro rfl rfl))

end Sys2Proof.Tests
end

section
/-! PROOFS. `wrap64` is reduction modulo 2^64 into i64 (00_scope.md R8): the facts about the value of a word and of
`wrap64`, and the statement that they settle. -/

namespace Sys2Proof

/-- The value of `wrap64(v)` is `v` reduced modulo 2^64 to the residue of least absolute value. -/
theorem toInt_wrap64 (v : Int) : (wrap64 v).toInt = v.bmod (2 ^ 64) := BitVec.toInt_ofInt v

/-- Every word has its value in i64 (00_scope.md R6). -/
theorem inI64_toInt (w : Word) : InI64 w.toInt := ⟨BitVec.le_toInt w, BitVec.toInt_lt⟩

theorem toInt_wrap64_sub_emod (v : Int) : ((wrap64 v).toInt - v) % 2 ^ 64 = 0 := by
  rw [toInt_wrap64]
  exact Int.emod_eq_emod_iff_emod_sub_eq_zero.mp Int.bmod_emod

/-- An interval of length 2^64 holds at most one member of each residue class. -/
theorem eq_of_inI64_of_emod_sub_eq_zero {x y v : Int} (hx : InI64 x) (hy : InI64 y)
    (hxv : (x - v) % 2 ^ 64 = 0) (hyv : (y - v) % 2 ^ 64 = 0) : x = y := by
  obtain ⟨xlo, xhi⟩ := hx
  obtain ⟨ylo, yhi⟩ := hy
  omega

/-- In i64, `wrap64` changes no value. -/
theorem toInt_wrap64_of_inI64 {v : Int} (h : InI64 v) : (wrap64 v).toInt = v :=
  eq_of_inI64_of_emod_sub_eq_zero (inI64_toInt _) h (toInt_wrap64_sub_emod v) (by simp)

/-- Settles O11: the value of `wrap64(v)` is in i64 and congruent to `v`, and i64 holds one such value. -/
theorem wrapIsTheCongruentValue : Obligations.WrapIsTheCongruentValue := fun v =>
  ⟨inI64_toInt _, toInt_wrap64_sub_emod v, fun _ hx hxv =>
    eq_of_inI64_of_emod_sub_eq_zero hx (inI64_toInt _) hxv (toInt_wrap64_sub_emod v)⟩

end Sys2Proof
end

section
/-! PROOFS. The step as a whole (40_execution_cycle.md R87, R89): what it is from each run state, what it can answer, and
where an instruction that is decoded lies in memory; the statements on `pc`, `rb`, `Q` and the fetch follow. -/

namespace Sys2Proof.Machine

variable {s t : State}

theorem step_of_live (h : s.Live) : step s = exec (s.decodeAt s.pc.toInt) (s.emit (.fetch s.pc.toInt)) := by
  rcases h with h | h <;> simp only [step, State.terminalStep, h, State.fetch]

theorem step_of_halted (h : s.status.state = .halted) : step s = .next { s with outcome := some .halted } := by
  simp only [step, State.terminalStep, h]

theorem step_of_faulted (h : s.status.state = .faulted) :
    step s = .next { s with outcome := some (.fault s.status.cause s.status.info) } := by
  simp only [step, State.terminalStep, h]

/-- Everything a step that fetches can do: what `ExecResult` lists, from the state with the event Fetch(pc). -/
theorem step_result_of_live (hl : s.Live) (h : step s = .next t) :
    ∃ reads : List Int, reads.length ≤ 2 ∧ (∀ a ∈ reads, s.InRange a) ∧
      ExecResult (s.decodeAt s.pc.toInt) (s.emit (.fetch s.pc.toInt)) reads (.next t) := by
  rw [← h, step_of_live hl]
  exact exec_result _ (s.emit _)

/-- From a terminal state a step changes the outcome port at most (40_execution_cycle.md R89). -/
theorem step_eq_of_terminal (h : s.status.state = .halted ∨ s.status.state = .faulted) :
    ∃ o, step s = .next { s with outcome := o } :=
  h.elim (fun h => ⟨_, step_of_halted h⟩) fun h => ⟨_, step_of_faulted h⟩

/-- With the outcome port in step with the run state, a step from a terminal state changes nothing. -/
theorem step_eq_self_of_terminal (ho : OutcomeMatches s) (h : s.status.state = .halted ∨ s.status.state = .faulted) :
    step s = .next s := by
  rcases h with h | h <;> simp only [OutcomeMatches, h] at ho
  · rw [step_of_halted h, ← ho]
  · rw [step_of_faulted h, ← ho]

@[simp] theorem State.decodeAt_emit (e : TraceEvent) (a : Int) : (s.emit e).decodeAt a = s.decodeAt a :=
  State.decodeAt_congr rfl rfl a

/-- The target of a taken jump is its second operand. -/
theorem TakenJump.operands {i : Instr} {o : Operand} (h : TakenJump s i o) : ∃ c, i.operands = [c, o] := by
  obtain ⟨c, x, -, ⟨rfl, -⟩ | ⟨rfl, -⟩⟩ := h <;> exact ⟨c, rfl⟩

theorem TakenJump.unique {i : Instr} {o p : Operand} (ho : TakenJump s i o) (hp : TakenJump s i p) : o = p := by
  obtain ⟨c, hc⟩ := ho.operands
  obtain ⟨c', hc'⟩ := hp.operands
  simpa using (congrArg List.getLast? hc).symm.trans (congrArg List.getLast? hc')

/-- The parameter cells that the decoder takes are cells of memory (30_encoding.md R73). -/
theorem ne_none_of_takeParams {n : Nat} {cells : List (Option Word)} {ps : List Word} (h : takeParams n cells = some ps) :
    ∀ c ∈ cells.take n, c ≠ none := by
  rw [(takeParams_eq_some.1 h).2]
  simp

/-- A decoded instruction lies in memory whole; Invalid has no cells (30_encoding.md R66, R73). -/
theorem decodeAt_width (s : State) (a : Int) :
    (s.decodeAt a).width = 0 ∨ 0 ≤ a ∧ a + (s.decodeAt a).width ≤ s.cfg.memSize := by
  have h : DecodeResult _ _ _ _ _ (s.decodeAt a) := decode_result _ _ _ _ _
  generalize s.decodeAt a = i at h ⊢
  cases h with
  | instr x op ms ps _ hx _ _ _ _ cells opcode _ =>
    right
    obtain ⟨h0, hlt⟩ := (State.fetchCell_eq_some.1 hx).1
    have taken := ne_none_of_takeParams cells
    have hn : op.nparams ≤ 3 := (takeParams_eq_some.1 cells).1
    rw [Instr.width_of_opcode opcode]
    generalize op.nparams = n at taken hn
    interval_cases n <;> simp [State.fetchCell_eq_none] at taken <;> omega
  | _ => exact .inl rfl

/-- With a legal MEM_SIZE the sum `pc + width` of 10_state.md R18 does not leave i64. -/
theorem inI64_pc_add_width (hc : s.cfg.Legal) : InI64 (s.pc.toInt + (s.decodeAt s.pc.toInt).width) := by
  obtain ⟨-, hsize⟩ := hc
  rcases decodeAt_width s s.pc.toInt with h | ⟨hpos, hle⟩
  · simpa [h] using inI64_toInt s.pc
  · exact ⟨by omega, by omega⟩

/-- Settles O34, by the cases of a step: only a completed instruction moves pc, to its jump's target or by its width. -/
theorem pcChangesByTheTable : Obligations.PcChangesByTheTable := by
  intro s t hc hl h
  have exact_sum : (wrap64 (s.pc.toInt + (s.decodeAt s.pc.toInt).width)).toInt = _ :=
    toInt_wrap64_of_inI64 (inI64_pc_add_width hc)
  obtain ⟨reads, -, -, h⟩ := step_result_of_live hl h
  cases h with
  | plain pc rb o signal base target notHlt notIn =>
    refine ⟨fun h => absurd rfl h, fun _ => ?_⟩
    rcases target with ⟨o, taken, lands⟩ | ⟨untaken, rfl⟩
    · exact ⟨fun p hp => TakenJump.unique hp taken ▸ lands, fun untaken => absurd taken (untaken o)⟩
    · exact ⟨fun o taken => absurd taken (untaken o), fun _ => exact_sum⟩
  | stored a v queue inRange notJump taken notHlt =>
    exact ⟨fun h => absurd rfl h, fun _ => ⟨fun o taken => absurd taken (notJump o), fun _ => exact_sum⟩⟩
  | suspended | halted | faulted => exact ⟨fun _ => rfl, fun h => nomatch h⟩

/-- Settles O35, by the cases of a step: a terminal state keeps its registers, and of the ways an instruction ends only
one without a store may change rb and only one with a store may change Q. -/
theorem registersChangeOnlyByTheirInstructions : Obligations.RegistersChangeOnlyByTheirInstructions := by
  intro s t h
  rcases live_or_terminal s with hl | hterm
  · obtain ⟨reads, -, -, h⟩ := step_result_of_live hl h
    cases h with
    | plain pc rb o signal base target notHlt notIn => exact ⟨rfl, fun hrb => base.resolve_left hrb, .inl rfl⟩
    | stored a v queue inRange notJump taken notHlt =>
      refine ⟨rfl, fun hrb => absurd rfl hrb, ?_⟩
      rcases taken with ⟨same, -⟩ | ⟨d, isIn, head⟩
      · exact .inl same
      · replace head : s.queue = v :: queue := head
        exact .inr ⟨⟨d, isIn⟩, by simp [head, afterPlain], by simp [head]⟩
    | suspended | halted | faulted => exact ⟨rfl, fun hrb => absurd rfl hrb, .inl rfl⟩
  · obtain ⟨o, ho⟩ := step_eq_of_terminal hterm
    cases ho.symm.trans h
    exact ⟨rfl, fun hrb => absurd rfl hrb, .inl rfl⟩

/-- Outside memory the fetch port gives the decoder no word (30_encoding.md R71). -/
theorem decodeAt_of_not_inRange {a : Int} (h : ¬ s.InRange a) : s.decodeAt a = .invalid .fetchOob := by
  rw [State.decodeAt, State.fetchCell_eq_none.2 h, decode]

/-- Settles O31: outside memory the decoder answers Invalid, whose execution is the fault. -/
theorem fetchOutsideMemoryFaults : Obligations.FetchOutsideMemoryFaults := by
  intro s hl h
  rw [step_of_live hl, decodeAt_of_not_inRange h]
  rfl

end Sys2Proof.Machine
end

section
/-! PROOFS. The invariant of the machine: it holds at reset, each way an instruction can end keeps it, and with it the run
state changes by the table (10_state.md R25). -/

namespace Sys2Proof.Machine

variable {s t : State}

/-- Every Read and Write among the events is at an address of `P` (60_exceptions.md R134). -/
def AccessesIn (P : Int → Prop) (es : List TraceEvent) : Prop := ∀ a, .read a ∈ es ∨ .write a ∈ es → P a

theorem AccessesIn.append {P : Int → Prop} {es fs : List TraceEvent} (he : AccessesIn P es) (hf : AccessesIn P fs) :
    AccessesIn P (es ++ fs) := by
  simp only [AccessesIn, List.mem_append] at *
  rintro a ((h | h) | h | h)
  · exact he a (.inl h)
  · exact hf a (.inl h)
  · exact he a (.inr h)
  · exact hf a (.inr h)

@[simp] theorem accessesIn_fetch (P : Int → Prop) (b : Int) : AccessesIn P [.fetch b] := by simp [AccessesIn]

@[simp] theorem accessesIn_write {P : Int → Prop} {b : Int} : AccessesIn P [.write b] ↔ P b := by simp [AccessesIn]

@[simp] theorem accessesIn_reads {P : Int → Prop} {l : List Int} :
    AccessesIn P (l.map .read) ↔ ∀ a ∈ l, P a := by
  simp [AccessesIn]

theorem State.Live.ne_faulted (h : s.Live) : s.status.state ≠ .faulted := by
  rcases h with h | h <;> simp [h]

/-- A recorded fault has a cause. -/
theorem FaultGrounds.cause_ne_none {i : Instr} {cause : Cause} {info : Option Int} (h : FaultGrounds s i cause info) :
    cause ≠ .none := by
  rintro rfl
  exact h

/-- The event of a fetch is no access of memory. -/
theorem State.Inv.emit_fetch (hi : s.Inv) (a : Int) : (s.emit (.fetch a)).Inv :=
  { hi with tracedInRange := AccessesIn.append hi.tracedInRange (accessesIn_fetch _ a) }

/-- A completed instruction keeps the invariant, whatever memory it leaves in canonical form and within MEM_SIZE. -/
theorem State.Inv.completed (hi : s.Inv) (hl : s.Live) {mem : Memory} {pc rb : Word} {queue : List Word} {o : StepOutcome}
    {events : List TraceEvent} (canonical : mem.wf) (bounded : ∀ c ∈ mem, c.1 < s.cfg.memSize)
    (signal : o = .cont ∨ ∃ v, o = .output v) (accesses : AccessesIn s.InRange events) :
    State.Inv { afterPlain s pc rb queue o events with mem := mem } where
  legal := hi.legal
  memCanonical := canonical
  memBounded := bounded
  recordClear := fun _ => hi.recordClear hl.ne_faulted
  recordSet := nofun
  suspendedAtIn := nofun
  haltedAtHlt := nofun
  outcomeMatches := .inr (signal.imp (congrArg some) fun ⟨v, hv⟩ => ⟨v, congrArg some hv⟩)
  tracedInRange := AccessesIn.append hi.tracedInRange accesses

theorem State.Inv.suspended (hi : s.Inv) (hl : s.Live) {d : Operand} (hd : s.decodeAt s.pc.toInt = .inp d) :
    (s.finish .waitInput .needInput).Inv where
  legal := hi.legal
  memCanonical := hi.memCanonical
  memBounded := hi.memBounded
  recordClear := fun _ => hi.recordClear hl.ne_faulted
  recordSet := nofun
  suspendedAtIn := fun _ => ⟨d, hd⟩
  haltedAtHlt := nofun
  outcomeMatches := rfl
  tracedInRange := hi.tracedInRange

theorem State.Inv.halted (hi : s.Inv) (hl : s.Live) (hd : s.decodeAt s.pc.toInt = .hlt) :
    (s.finish .halted .halted).Inv where
  legal := hi.legal
  memCanonical := hi.memCanonical
  memBounded := hi.memBounded
  recordClear := fun _ => hi.recordClear hl.ne_faulted
  recordSet := nofun
  suspendedAtIn := nofun
  haltedAtHlt := fun _ => hd
  outcomeMatches := rfl
  tracedInRange := hi.tracedInRange

theorem State.Inv.faulted (hi : s.Inv) {cause : Cause} {events : List TraceEvent} (info : Option Int)
    (set : cause ≠ .none) (accesses : AccessesIn s.InRange events) : (afterFault s cause info events).Inv where
  legal := hi.legal
  memCanonical := hi.memCanonical
  memBounded := hi.memBounded
  recordClear := fun h => absurd rfl h
  recordSet := fun _ => ⟨set, rfl⟩
  suspendedAtIn := nofun
  haltedAtHlt := nofun
  outcomeMatches := rfl
  tracedInRange := AccessesIn.append hi.tracedInRange accesses

/-- A write in range lists no cell outside memory. -/
theorem lt_memSize_of_mem_write {a : Int} {v : Word} (bounded : ∀ c ∈ s.mem, c.1 < s.cfg.memSize) (ha : s.InRange a) :
    ∀ c ∈ s.mem.write a.toNat v, c.1 < s.cfg.memSize := by
  intro c hc
  rcases Memory.mem_write hc with ⟨rfl, -⟩ | ⟨listed, -⟩
  · obtain ⟨h0, hlt⟩ := ha
    simp only
    omega
  · exact bounded c listed

/-- Executing the instruction at pc keeps the invariant. -/
theorem ExecResult.inv {i : Instr} {reads : List Int} (h : ExecResult i s reads (.next t)) (hi : s.Inv) (hl : s.Live)
    (decoded : s.decodeAt s.pc.toInt = i) (inRange : ∀ a ∈ reads, s.InRange a) : t.Inv := by
  have readsIn : AccessesIn s.InRange (reads.map .read) := accessesIn_reads.2 inRange
  cases h with
  | plain pc rb o signal base target notHlt notIn =>
    exact hi.completed hl hi.memCanonical hi.memBounded (signal.imp_right fun ⟨_, v, _, _, ho⟩ => ⟨v, ho⟩) readsIn
  | stored a v queue written notJump taken notHlt =>
    exact hi.completed hl (Memory.wf_write _ _ hi.memCanonical) (lt_memSize_of_mem_write hi.memBounded written) (.inl rfl)
      (readsIn.append (accessesIn_write.2 written))
  | suspended d isIn empty noReads => exact hi.suspended hl (decoded.trans isIn)
  | halted isHlt noReads => exact hi.halted hl (decoded.trans isHlt)
  | faulted cause info grounds notHlt notStarved => exact hi.faulted info grounds.cause_ne_none readsIn

/-- Settles O40: a terminal state that meets the invariant is its own next state, and from any other the step executes
the instruction at pc after its fetch, and both keep the invariant. -/
theorem everyStepKeepsTheInvariant : Obligations.EveryStepKeepsTheInvariant := by
  intro s t hi h
  rcases live_or_terminal s with hl | hterm
  · obtain ⟨reads, -, inRange, h⟩ := step_result_of_live hl h
    exact h.inv (hi.emit_fetch _) hl (State.decodeAt_emit _ _) inRange
  · cases (step_eq_self_of_terminal hi.outcomeMatches hterm).symm.trans h
    exact hi

/-- Settles O41: no cell is listed, nothing is traced, and the run state is RUN with a clear record. -/
theorem resetMeetsTheInvariant : Obligations.ResetMeetsTheInvariant where
  legal := by decide
  memCanonical := reset_mem_wf
  memBounded := nofun
  recordClear := fun _ => ⟨rfl, rfl, rfl⟩
  recordSet := nofun
  suspendedAtIn := nofun
  haltedAtHlt := nofun
  outcomeMatches := .inl rfl
  tracedInRange := fun _ h => h.elim nofun nofun

/-- Settles O36: a terminal state is its own next state; else by the ways the instruction at pc can end, each of which
names the run state and the outcome it leaves. -/
theorem runStateChangesByTheTable : Obligations.RunStateChangesByTheTable := by
  intro s t hi h
  refine ⟨fun hterm => ?_, fun hl => ?_⟩
  · cases (step_eq_self_of_terminal hi.outcomeMatches hterm).symm.trans h
    rfl
  have pending := hi.suspendedAtIn
  obtain ⟨reads, -, -, h⟩ := step_result_of_live hl h
  cases h with
  | plain pc rb o signal base target notHlt notIn =>
    have noFault : ∀ cause info, some o ≠ some (StepOutcome.fault cause info) := by
      rcases signal with rfl | ⟨_, v, -, -, rfl⟩ <;> simp
    exact ⟨⟨nofun, fun ⟨⟨d, isIn⟩, _⟩ => absurd isIn (notIn d)⟩, ⟨nofun, fun isHlt => absurd isHlt notHlt⟩,
      ⟨nofun, fun ⟨cause, info, ho⟩ => absurd ho (noFault cause info)⟩, fun waits _ => pending waits⟩
  | stored a v queue inRange notJump taken notHlt =>
    have notStarved : ∀ d, s.decodeAt s.pc.toInt = .inp d → s.queue ≠ [] := by
      rcases taken with ⟨-, notIn⟩ | ⟨_, -, head⟩
      · exact fun d isIn => absurd isIn (notIn d)
      · exact fun _ _ => head.trans_ne (List.cons_ne_nil v queue)
    exact ⟨⟨nofun, fun ⟨⟨d, isIn⟩, empty⟩ => absurd empty (notStarved d isIn)⟩,
      ⟨nofun, fun isHlt => absurd isHlt notHlt⟩, ⟨nofun, nofun⟩, fun waits _ => pending waits⟩
  | suspended d isIn empty noReads =>
    exact ⟨⟨fun _ => ⟨⟨d, isIn⟩, empty⟩, fun _ => rfl⟩, ⟨nofun, fun isHlt => nomatch isIn.symm.trans isHlt⟩,
      ⟨nofun, nofun⟩, nofun⟩
  | halted isHlt noReads =>
    exact ⟨⟨nofun, fun ⟨⟨d, isIn⟩, _⟩ => nomatch isHlt.symm.trans isIn⟩, ⟨fun _ => isHlt, fun _ => rfl⟩,
      ⟨nofun, nofun⟩, nofun⟩
  | faulted cause info grounds notHlt notStarved =>
    exact ⟨⟨nofun, fun ⟨⟨d, isIn⟩, empty⟩ => absurd empty (notStarved d isIn)⟩,
      ⟨nofun, fun isHlt => absurd isHlt notHlt⟩, ⟨fun _ => ⟨cause, info, rfl⟩, fun _ => rfl⟩, nofun⟩

end Sys2Proof.Machine
end

section
/-! PROOFS. The memory controller (20_memory.md R32 to R43): the canonical form of a memory is fixed by what its cells read
as, an operand is read and written by its mode, and `arb` moves the cells that `Rel` operands name. -/

namespace Sys2Proof.Machine

variable {s : State}

/-- A cell that does not read as an unlisted one is listed, with the value it reads as. -/
theorem Memory.mem_of_read_ne_unlisted {m : Memory} {a : Nat} (h : m.read a ≠ Memory.unlisted) : (a, m.read a) ∈ m := by
  induction m with
  | nil => exact absurd rfl h
  | cons c rest ih =>
    rw [Memory.read] at h ⊢
    split at h
    · next hc => simp [← hc]
    · next hc => simpa [hc] using .inr (ih h)

/-- Addresses that strictly rise list no cell twice: a listed cell reads as its listed value. -/
theorem Memory.read_of_mem {m : Memory} (rising : m.Pairwise fun c e => c.1 < e.1) {c : Cell} (hc : c ∈ m) :
    m.read c.1 = c.2 := by
  induction m with
  | nil => cases hc
  | cons e rest ih =>
    obtain ⟨above, rising⟩ := List.pairwise_cons.1 rising
    rcases List.mem_cons.1 hc with rfl | hc
    · exact if_pos rfl
    · exact (if_neg (above c hc).ne).trans (ih rising hc)

/-- What a canonical memory lists, said by its reads alone. -/
theorem Memory.wf.mem_iff {m : Memory} (h : m.wf) {c : Cell} : c ∈ m ↔ m.read c.1 = c.2 ∧ c.2 ≠ Memory.unlisted := by
  obtain ⟨rising, notUnlisted⟩ := h
  constructor
  · exact fun hc => ⟨Memory.read_of_mem rising hc, notUnlisted c hc⟩
  · rintro ⟨hr, hc⟩
    simpa [hr] using Memory.mem_of_read_ne_unlisted (hr.trans_ne hc)

/-- Settles O10: reads that agree list the same cells, and a list in strictly rising order is fixed by its members. -/
theorem canonicalMemoriesThatReadAlikeAreEqual : Obligations.CanonicalMemoriesThatReadAlikeAreEqual := by
  intro m n hm hn hread
  have members : ∀ c, c ∈ m ↔ c ∈ n := fun c => by rw [hm.mem_iff, hn.mem_iff, hread]
  have irrefl : Std.Irrefl fun c e : Cell => c.1 < e.1 := ⟨fun c => lt_irrefl c.1⟩
  have antisymm : Std.Antisymm fun c e : Cell => c.1 < e.1 := ⟨fun _ _ h h' => absurd h' h.asymm⟩
  exact hm.1.eq_of_mem_iff hn.1 members

/-- Settles O8: each mode by what an evaluation does with an operand that can be read, and with one outside memory. -/
theorem evalReadsByMode : Obligations.EvalReadsByMode := by
  intro s
  refine ⟨fun x => ⟨rfl, rfl, rfl⟩, fun v => rfl, fun p h => ?_, fun p h => ?_, fun o h => ?_, fun o h => ?_⟩
  · exact eval_of_readsAs (o := .pos p) ⟨h, rfl⟩
  · exact eval_of_outOfRange (o := .pos p) ⟨rfl, h⟩
  · exact eval_of_readsAs (o := .rel o) ⟨h, rfl⟩
  · exact eval_of_outOfRange (o := .rel o) ⟨rfl, h⟩

/-- A store to a cell of memory gives it the value and leaves every other cell, and everything but the trace, alone. -/
theorem store_frame {d : Operand} {a : Int} (v : Word) (h : WritesTo s d a) :
    ∃ m, store d v s = .ok () { s with mem := m, trace := s.trace ++ [.write a] } ∧
      m.read a.toNat = v ∧ ∀ x : Nat, (x : Int) ≠ a → m.read x = s.mem.read x := by
  refine ⟨s.mem.write a.toNat v, store_of_writesTo v h, ?_, fun x hx => ?_⟩
  · rw [Memory.read_write, if_pos rfl]
  · rw [Memory.read_write, if_neg (by have := h.2.1; omega)]

/-- Settles O9: `Pos` and `Rel` name the one address, which is in memory or not; an immediate names none. -/
theorem storeWritesOneCell : Obligations.StoreWritesOneCell := by
  intro s v
  refine ⟨fun x => store_imm x v s, fun d a hd => ?_⟩
  have address : effAddr d s.rb = .addr a := by
    rcases hd with ⟨p, rfl, rfl⟩ | ⟨o, rfl, rfl⟩ <;> rfl
  exact ⟨fun outside => store_of_outOfRange v ⟨address, outside⟩, fun inside => store_frame v ⟨address, inside⟩⟩

/-- A sum that lies in i64, or that ARITH_OVERFLOW wraps, is narrowed without a fault (41_alu.md R106). -/
theorem narrow_eq_ok {n : Int} (h : InI64 n ∨ s.cfg.arithOverflow = .wrap) : narrow n s = .ok (wrap64 n) s := by
  rcases narrow_cases n s with ⟨-, e⟩ | ⟨⟨outside, faults⟩, -⟩
  · exact e
  · exact absurd h (by simp [outside, faults])

/-- `arb` with a readable operand moves rb by its value and pc by 2, and writes no cell (46_relbase.md R117). -/
theorem exec_arb_of_readsAs {o : Operand} {v : Word} (hv : ReadsAs s o v)
    (h : InI64 (s.rb.toInt + v.toInt) ∨ s.cfg.arithOverflow = .wrap) :
    exec (.arb o) s =
      .next (afterPlain s (wrap64 (s.pc.toInt + 2)) (wrap64 (s.rb.toInt + v.toInt)) s.queue .cont (readEvents s o)) := by
  rw [exec, execArb, eval_of_readsAs hv, Staged.bind_ok, aluAdd, narrow_eq_ok (by exact h)]
  rfl

/-- A `Rel` operand is written at rb plus its offset, where that lies in memory (20_memory.md R36, R41). -/
theorem writesTo_rel {k : Word} {a : Int} : WritesTo s (.rel k) a ↔ s.InRange a ∧ a = s.rb.toInt + k.toInt := by
  rw [WritesTo, effAddr, EffAddr.addr.injEq, and_comm, eq_comm]

/-- Settles O26: after `arb` the memory and the parameters are the old ones, and every `Rel` operand goes by the new rb. -/
theorem arbShiftsLaterRelativeOperands : Obligations.ArbShiftsLaterRelativeOperands := by
  intro s o v hv h
  refine ⟨_, exec_arb_of_readsAs hv h, rfl, rfl, rfl, fun k =>
    ⟨rfl, fun inside => ?_, fun _ => Iff.rfl, fun _ => writesTo_rel⟩⟩
  have exact_base : (wrap64 (s.rb.toInt + v.toInt)).toInt = s.rb.toInt + v.toInt := toInt_wrap64_of_inI64 inside
  exact congrArg (· + k.toInt) exact_base

end Sys2Proof.Machine
end

section
/-! PROOFS. The decoder and the encoder are inverse to each other (30_encoding.md R78): the cases of `DecodeResult` fix the
decoder's answer, and an opcode with its modes and a word without high digits are one and the same number. -/

namespace Sys2Proof

variable {strict : Bool} {w p1 p2 p3 : Option Word} {i : Instr} {op : Opcode} {ms : List Mode} {ps : List Word}

theorem strictHigh_eq_false {n : Nat} (low : strict = true → n = 0) : (strict && n != 0) = false := by simpa using low

/-- The cases of `DecodeResult` fix what the decoder answers (30_encoding.md R71). -/
theorem decode_eq_of_result (h : DecodeResult strict w p1 p2 p3 i) : decode strict w p1 p2 p3 = i := by
  cases h with
  | fetchOob hw => rw [hw, decode]
  | negative x hw neg => simp only [hw, decode, neg, if_true]
  | unknown x hw pos no =>
    have unknown : Opcode.ofNumber (x.toNat % 100) = none :=
      Option.eq_none_iff_forall_ne_some.2 fun op h => no op (Opcode.ofNumber_eq_some.1 h)
    simp only [hw, decode, pos.not_gt, if_false, unknown]
  | badMode x op hw pos code bad =>
    simp only [hw, decode, pos.not_gt, if_false, Opcode.ofNumber_eq_some.2 code]
    rcases bad with bad | ⟨rfl, high⟩
    · rw [bad]
    · cases modesFrom x.toNat 1 op.nparams <;> simp [high]
  | truncated x op ms hw pos code modes low short =>
    simp only [hw, decode, pos.not_gt, if_false, Opcode.ofNumber_eq_some.2 code, modes,
      strictHigh_eq_false low, Bool.false_eq_true, short]
  | instr x op ms ps i hw pos code modes low cells opcode operands =>
    simp only [hw, decode, pos.not_gt, if_false, Opcode.ofNumber_eq_some.2 code, modes,
      strictHigh_eq_false low, Bool.false_eq_true, cells, ← operands, Instr.build_operands opcode, Option.getD_some]

/-- Well-formed operands are modes' tags on as many parameter cells. -/
theorem exists_eq_zipWith_tag {os : List Operand} (h : ∀ o ∈ os, o.wf = true) :
    ∃ ms ps, List.length ms = os.length ∧ List.length ps = os.length ∧ os = List.zipWith Mode.tag ms ps := by
  induction os with
  | nil => exact ⟨[], [], rfl, rfl, rfl⟩
  | cons o os ih =>
    obtain ⟨m, p, rfl⟩ := Operand.eq_tag_of_wf (h o (by simp))
    obtain ⟨ms, ps, hms, hps, rfl⟩ := ih fun o ho => h o (by simp [ho])
    exact ⟨m :: ms, p :: ps, congrArg (· + 1) hms, congrArg (· + 1) hps, rfl⟩

/-- The mode digits of operands, laid from a place on, are the digits of one decimal number (30_encoding.md R56). -/
theorem modeSum_zipWith_tag (h : ms.length = ps.length) (place : Nat) :
    modeSum place (List.zipWith Mode.tag ms ps) = some (place * Nat.ofDigits 10 (ms.map Mode.digit)) := by
  induction ms generalizing ps place with
  | nil => simp [modeSum]
  | cons m ms ih =>
    obtain ⟨p, ps, rfl⟩ := List.exists_cons_of_length_eq_add_one h.symm
    simp only [List.zipWith_cons_cons, modeSum, Mode.tag_modeDigit, ih (Nat.succ.inj h), List.map_cons, Nat.ofDigits_cons]
    congr 1
    ring

theorem payloads_zipWith_tag (h : ms.length = ps.length) : payloads (List.zipWith Mode.tag ms ps) = some ps := by
  induction ms generalizing ps with
  | nil => rw [List.length_eq_zero_iff.1 h.symm]; rfl
  | cons m ms ih =>
    obtain ⟨p, ps, rfl⟩ := List.exists_cons_of_length_eq_add_one h.symm
    simp [payloads, ih (Nat.succ.inj h)]

/-- The number `OP + 100·m1 + 1000·m2 + 10000·m3` of 30_encoding.md R78. -/
def canonicalNumber (op : Opcode) (ms : List Mode) : Nat := op.number + 100 * Nat.ofDigits 10 (ms.map Mode.digit)

/-- The cells of the canonical encoding (30_encoding.md R78). -/
theorem encode_of_tags (opcode : i.opcode = some op) (operands : i.operands = List.zipWith Mode.tag ms ps)
    (h : ms.length = ps.length) : encode i = some (BitVec.ofNat 64 (canonicalNumber op ms) :: ps) := by
  rw [encode, opcode, operands, modeSum_zipWith_tag h, payloads_zipWith_tag h, canonicalNumber]

theorem Opcode.number_lt (op : Opcode) : op.number < 100 := by cases op <;> decide

theorem Opcode.nparams_le (op : Opcode) : op.nparams ≤ 3 := by cases op <;> decide

theorem Mode.digit_lt (m : Mode) : m.digit < 10 := by cases m <;> decide

theorem digit_lt (x k : Nat) : digit x k < 10 := Nat.mod_lt _ (by decide)

theorem ofDigits_modes_lt (ms : List Mode) : Nat.ofDigits 10 (ms.map Mode.digit) < 10 ^ ms.length := by
  simpa using Nat.ofDigits_lt_base_pow_length (b := 10) (l := ms.map Mode.digit) (by decide) (by simp [Mode.digit_lt])

/-- The decimal digits of a number from one place on make its part between two places. -/
theorem ofDigits_digit (x i n : Nat) :
    Nat.ofDigits 10 ((List.range' i n).map (digit x)) = x / 10 ^ i % 10 ^ n := by
  induction n generalizing i with
  | zero => simp [Nat.mod_one]
  | succ n ih =>
    rw [List.range'_succ, List.map_cons, Nat.ofDigits_cons, ih, Nat.pow_succ' (n := n), Nat.mod_mul,
      Nat.div_div_eq_div_mul, ← Nat.pow_succ]
    rfl

/-- The modes of a word are those whose digits make up the word's part above the opcode (30_encoding.md R58). -/
theorem modesFrom_eq_some_iff_ofDigits {x n : Nat} (h : ms.length = n) :
    modesFrom x 1 n = some ms ↔ Nat.ofDigits 10 (ms.map Mode.digit) = x / 100 % 10 ^ n := by
  rw [modesFrom_eq_some, show x / 100 = x / 10 ^ 2 from rfl, ← ofDigits_digit]
  refine ⟨congrArg _, Nat.ofDigits_inj_of_len_eq (by decide) (by simp [h]) ?_ ?_⟩
  · exact List.forall_mem_map.2 fun m _ => m.digit_lt
  · exact List.forall_mem_map.2 fun k _ => digit_lt x k

/-- A word is the canonical one of its opcode and modes exactly when no digit stands above its mode digits
(30_encoding.md R70, R78). -/
theorem eq_canonicalNumber_iff {x : Nat} (h : ms.length = op.nparams) :
    x = canonicalNumber op ms ↔
      op.number = x % 100 ∧ modesFrom x 1 op.nparams = some ms ∧ x / 10 ^ (op.nparams + 2) = 0 := by
  have number_lt := op.number_lt
  have digits_lt : _ < 10 ^ op.nparams := h ▸ ofDigits_modes_lt ms
  rw [modesFrom_eq_some_iff_ofDigits h, Nat.pow_add', ← Nat.div_div_eq_div_mul, canonicalNumber, Nat.div_eq_zero_iff]
  generalize Nat.ofDigits 10 (ms.map Mode.digit) = d, 10 ^ op.nparams = n at digits_lt ⊢
  constructor
  · rintro rfl
    have above : (op.number + 100 * d) / 100 = d := by omega
    exact ⟨by omega, by rw [above, Nat.mod_eq_of_lt digits_lt], .inr (above.trans_lt digits_lt)⟩
  · rintro ⟨code, digits, low⟩
    rw [Nat.mod_eq_of_lt (show x / 100 < n by omega)] at digits
    omega

/-- No canonical word leaves the nonnegative words. -/
theorem canonicalNumber_lt (h : ms.length = op.nparams) : canonicalNumber op ms < 2 ^ 63 := by
  have number_lt := op.number_lt
  have digits_lt := ofDigits_modes_lt ms
  have : 10 ^ ms.length ≤ 10 ^ 3 := Nat.pow_le_pow_right (by decide) (h ▸ op.nparams_le)
  rw [canonicalNumber]
  omega

/-- Parameter cells that stand first among the cells after the word are the ones the decoder takes. -/
theorem takeParams_of_cells {rest : List Word} (h : ps.length ≤ 3) :
    takeParams ps.length [(ps ++ rest)[0]?, (ps ++ rest)[1]?, (ps ++ rest)[2]?] = some ps := by
  match ps with
  | [] | [_] | [_, _] | [_, _, _] => rfl
  | _ :: _ :: _ :: _ :: _ => simp at h; omega

/-- Settles O3: the canonical word has the opcode, the modes and no digit above, so the decoder answers the opcode's
instruction on the operands that were encoded. -/
theorem decodeOfEncodeIsTheInstruction : Obligations.DecodeOfEncodeIsTheInstruction := by
  intro i strict rest wf
  obtain ⟨hasOpcode, operandsWf⟩ := Instr.wf_iff.1 wf
  obtain ⟨op, opcode⟩ := Option.ne_none_iff_exists'.1 hasOpcode
  obtain ⟨ms, ps, hms, hps, operands⟩ := exists_eq_zipWith_tag operandsWf
  rw [Instr.operands_length opcode] at hms hps
  have encoded := encode_of_tags opcode operands (hms.trans hps.symm)
  refine ⟨_, encoded, Laws.encode_length encoded, decode_eq_of_result ?_⟩
  have small := canonicalNumber_lt hms
  have value : (BitVec.ofNat 64 (canonicalNumber op ms)).toNat = canonicalNumber op ms :=
    BitVec.toNat_ofNat .. ▸ Nat.mod_eq_of_lt (by omega)
  obtain ⟨code, modes, low⟩ := (eq_canonicalNumber_iff hms).1 value
  have pos : 0 ≤ (BitVec.ofNat 64 (canonicalNumber op ms)).toInt := BitVec.toInt_pos_iff.2 (by omega)
  have cells := takeParams_of_cells (rest := rest) (hps ▸ op.nparams_le)
  exact .instr _ op ms ps i rfl pos code modes (fun _ => low) (hps ▸ cells) opcode operands

/-- Settles O4: without digits above its modes the word is the canonical one of its opcode and modes. -/
theorem encodeOfCanonicalWordIsItsCells : Obligations.EncodeOfCanonicalWordIsItsCells := by
  intro w p1 p2 p3 i decoded wf
  have h := decoded ▸ decode_result true (some w) (some p1) (some p2) (some p3)
  cases h with
  | instr x op ms ps _ hx pos code modes low cells opcode operands =>
    cases hx
    have hms := modesFrom_length modes
    have number := (eq_canonicalNumber_iff hms).2 ⟨code, modes, low rfl⟩
    have taken : ([p1, p2, p3].take op.nparams).map some = ps.map some := by
      rw [List.map_take]; exact (takeParams_eq_some.1 cells).2
    rw [encode_of_tags opcode operands (hms.trans (takeParams_length cells).symm), ← number, BitVec.ofNat_toNat,
      BitVec.setWidth_eq, Instr.width_of_opcode opcode, Nat.add_sub_cancel_left,
      List.map_injective_iff.2 (Option.some_injective _) taken]
  | _ => cases wf

end Sys2Proof
end

section
/-! PROOFS. What the decoder answers and what it reads (30_encoding.md R63 to R74): the answer to each check, which digits of
the word and which cells it goes by, the operands it gives, and the examples of R81 to R83. -/

namespace Sys2Proof

variable {strict : Bool} {w p1 p2 p3 : Option Word} {i : Instr} {op : Opcode} {ms : List Mode} {ps : List Word}

/-- The opcode numbers are those of the map (30_encoding.md R60). -/
theorem Opcode.number_mem (op : Opcode) : op.number ∈ [1, 2, 3, 4, 5, 6, 7, 8, 9, 99] := by cases op <;> decide

/-- A word with all checks passed is read as its opcode's instruction on the tagged cells (30_encoding.md R64, R71). -/
theorem decode_of_cells {x : Word} (pos : 0 ≤ x.toInt) (code : op.number = x.toNat % 100)
    (modes : modesFrom x.toNat 1 op.nparams = some ms) (low : strict = true → x.toNat / 10 ^ (op.nparams + 2) = 0)
    (cells : takeParams op.nparams [p1, p2, p3] = some ps) :
    (decode strict (some x) p1 p2 p3).opcode = some op ∧
      (decode strict (some x) p1 p2 p3).operands = List.zipWith Mode.tag ms ps := by
  obtain ⟨i, -, opcode, operands⟩ := Opcode.build_of_length (op := op) (os := List.zipWith Mode.tag ms ps)
    (by simp [modesFrom_length modes, takeParams_length cells])
  rw [decode_eq_of_result (.instr x op ms ps i rfl pos code modes low cells opcode operands)]
  exact ⟨opcode, operands⟩

/-- The modes of a word depend on its mode digits alone (30_encoding.md R58). -/
theorem modesFrom_congr {x y i n : Nat} (h : ∀ k, i < k → k ≤ i + n → digit x k = digit y k) :
    modesFrom x i n = modesFrom y i n := by
  have digits : (List.range' (i + 1) n).map (digit x) = (List.range' (i + 1) n).map (digit y) :=
    List.map_congr_left fun k hk => by
      rw [List.mem_range'_1] at hk
      exact h k (by omega) (by omega)
  exact Option.ext fun ms => by simp only [modesFrom_eq_some, digits]

/-- A word has no modes exactly when one of its mode digits is 3 or more (30_encoding.md R69). -/
theorem modesFrom_eq_none {x i n : Nat} : modesFrom x i n = none ↔ ∃ k ∈ List.range' i n, 3 ≤ digit x (k + 1) := by
  induction n generalizing i with
  | zero => simp [modesFrom]
  | succ n ih =>
    have either : modesFrom x i (n + 1) = none ↔
        Mode.ofDigit (digit x (i + 1)) = none ∨ modesFrom x (i + 1) n = none := by
      rw [modesFrom]
      cases Mode.ofDigit (digit x (i + 1)) <;> cases modesFrom x (i + 1) n <;> simp
    rw [either, Mode.ofDigit_eq_none, ih, List.range'_succ, List.exists_mem_cons_iff]

/-- Digits below 3 all select a mode (30_encoding.md R62). -/
theorem exists_modesFrom_of_digits_lt {x n : Nat} (h : ∀ k, 1 ≤ k → k ≤ n → digit x (k + 1) < 3) :
    ∃ ms, modesFrom x 1 n = some ms := by
  refine Option.ne_none_iff_exists'.1 fun none => ?_
  obtain ⟨k, hk, bad⟩ := modesFrom_eq_none.1 none
  rw [List.mem_range'_1] at hk
  exact (h k hk.1 (by omega)).not_ge bad

/-- The mode of a parameter is the one its digit selects (30_encoding.md R58). -/
theorem getElem?_of_modesFrom {x n k : Nat} (h : modesFrom x 1 n = some ms) (hk : k < n) :
    ∃ m, ms[k]? = some m ∧ m.digit = digit x (k + 2) := by
  have digits := congrArg (·[k]?) (modesFrom_eq_some.1 h)
  simpa [hk, Nat.add_comm] using digits

/-- A digit below a place is the same in two numbers that agree below that place. -/
theorem digit_congr {x y k n : Nat} (h : x % 10 ^ n = y % 10 ^ n) (hk : k < n) : digit x k = digit y k := by
  have part (z : Nat) : digit z k = z % 10 ^ n / 10 ^ k % 10 := by
    obtain ⟨j, rfl⟩ := Nat.exists_eq_add_of_lt hk
    rw [digit, Nat.add_assoc, Nat.pow_add, Nat.mod_mul_right_div_self, Nat.pow_succ', Nat.mod_mul_right_mod]
  rw [part x, part y, h]

/-- Two numbers that agree on their first digits, two at least, end in the same opcode (30_encoding.md R57). -/
theorem mod_100_congr {x y n : Nat} (h : x % 10 ^ (n + 2) = y % 10 ^ (n + 2)) : x % 100 = y % 100 :=
  Nat.ModEq.of_dvd (pow_dvd_pow 10 (Nat.le_add_left 2 n)) h

/-- Settles O5: the modes and the opcode stand below the digit NPARAMS + 2, and the rest is looked at by the strict check. -/
theorem highDigitsIgnoredUnlessStrict : Obligations.HighDigitsIgnoredUnlessStrict := by
  refine ⟨?_, ?_, fun _ _ _ => ⟨rfl, rfl⟩, fun _ _ _ => rfl⟩
  · intro w w' p1 p2 p3 op pos pos' code agree
    have code' := code.trans (mod_100_congr agree)
    have modes : modesFrom w.toNat 1 op.nparams = modesFrom w'.toNat 1 op.nparams :=
      modesFrom_congr fun k _ hk => digit_congr agree (by omega)
    simp only [decode, pos.not_gt, pos'.not_gt, if_false, Opcode.ofNumber_eq_some.2 code, Opcode.ofNumber_eq_some.2 code',
      modes, Bool.false_and, Bool.false_eq_true]
  · intro w p1 p2 p3 op pos code high
    exact decode_eq_of_result (.badMode w op rfl pos code (.inr ⟨rfl, high⟩))

/-- Settles O1, by evaluation: every word is a literal, and no check looks at the value of a parameter cell. -/
theorem decodesTheExampleWords : Obligations.DecodesTheExampleWords :=
  ⟨rfl, rfl, fun _ _ _ => ⟨rfl, rfl, rfl, rfl, rfl, rfl, rfl, rfl, rfl, rfl, rfl, rfl⟩⟩

/-- Every operand that a mode tags is well formed (30_encoding.md R63). -/
theorem wf_of_mem_zipWith_tag {o : Operand} (h : o ∈ List.zipWith Mode.tag ms ps) : o.wf = true := by
  rw [← List.map_uncurry_zip_eq_zipWith, List.mem_map] at h
  obtain ⟨⟨m, p⟩, -, rfl⟩ := h
  exact m.tag_wf p

end Sys2Proof

namespace Sys2Proof.Machine

variable {s t : State} {a : Int} {op : Opcode}

/-- Settles O6: the operands of a decoded instruction are tagged by modes, and a placeholder has no effective address. -/
theorem decoderNeverYieldsReservedOperands : Obligations.DecoderNeverYieldsReservedOperands := by
  refine ⟨fun strict w p1 p2 p3 => ?_, fun o s v reserved => ?_⟩
  · have h := decode_result strict w p1 p2 p3
    generalize decode strict w p1 p2 p3 = i at h ⊢
    cases h with
    | instr x op ms ps _ _ _ _ _ _ _ opcode operands =>
      exact .inl (Instr.wf_iff.2 ⟨by simp [opcode], fun o ho => wf_of_mem_zipWith_tag (operands ▸ ho)⟩)
    | _ => exact .inr ⟨_, rfl⟩
  · have noAddress := effAddr_of_reserved reserved s.rb
    exact ⟨eval_of_reserved noAddress, by simp only [store, noAddress]⟩

/-- The parameter cells, in the order of the addresses after the word (30_encoding.md R64). -/
theorem take_fetchCells (s : State) (a : Int) {n : Nat} (hn : n ≤ 3) :
    [s.fetchCell (a + 1), s.fetchCell (a + 2), s.fetchCell (a + 3)].take n =
      (List.range n).map fun k : Nat => s.fetchCell (a + k + 1) := by
  interval_cases n <;> simp [List.range_succ, add_assoc]

/-- The fetch port goes by the parameters and the one cell it fetches (20_memory.md R44). -/
theorem State.fetchCell_congr (hc : t.cfg = s.cfg) (hr : t.mem.read a.toNat = s.mem.read a.toNat) :
    t.fetchCell a = s.fetchCell a := by
  simp only [State.fetchCell, State.InRange, hc, hr]

/-- Settles O7: the word and the parameter cells taken are all that the decoder goes by for a valid instruction. -/
theorem decodeReadsOnlyItsOwnCells : Obligations.DecodeReadsOnlyItsOwnCells := by
  intro s t a hc wf agree
  have h : DecodeResult _ _ _ _ _ (s.decodeAt a) := decode_result _ _ _ _ _
  generalize s.decodeAt a = i at h wf agree ⊢
  cases h with
  | instr x op ms ps _ hx pos code modes low cells opcode operands =>
    rw [Instr.width_of_opcode opcode] at agree
    have same (k : Nat) (hk : k < 1 + op.nparams) : t.fetchCell (a + k) = s.fetchCell (a + k) :=
      State.fetchCell_congr hc (agree k hk)
    have hx' : t.fetchCell a = some x := by simpa [hx] using same 0 (by omega)
    obtain ⟨hn, taken⟩ := takeParams_eq_some.1 cells
    have cells' : takeParams op.nparams [t.fetchCell (a + 1), t.fetchCell (a + 2), t.fetchCell (a + 3)] = some ps := by
      refine takeParams_eq_some.2 ⟨hn, .trans ?_ taken⟩
      rw [take_fetchCells t a hn, take_fetchCells s a hn]
      refine List.map_congr_left fun k hk => ?_
      simpa [add_assoc] using same (k + 1) (by have := List.mem_range.1 hk; omega)
    exact decode_eq_of_result (.instr x op ms ps i hx' pos code modes (hc ▸ low) cells' opcode operands)
  | _ => cases wf

/-- A last parameter outside memory leaves the decoder without its cells (30_encoding.md R73). -/
theorem takeParams_eq_none_of_short (inside : a < s.cfg.memSize) (short : s.cfg.memSize ≤ a + op.nparams) :
    takeParams op.nparams [s.fetchCell (a + 1), s.fetchCell (a + 2), s.fetchCell (a + 3)] = none := by
  refine Option.eq_none_iff_forall_ne_some.2 fun ps cells => ?_
  have present := ne_none_of_takeParams cells
  rw [take_fetchCells s a op.nparams_le] at present
  have last : s.fetchCell (a + (op.nparams - 1 : Nat) + 1) ≠ none :=
    present _ (List.mem_map.2 ⟨_, List.mem_range.2 (by omega), rfl⟩)
  exact last (State.fetchCell_eq_none.2 fun inRange => by omega)

/-- With the last parameter in memory the decoder takes the cells after the word (30_encoding.md R64, R73). -/
theorem takeParams_eq_some_of_fits (pos : 0 ≤ a) (fits : a + op.nparams < s.cfg.memSize) :
    takeParams op.nparams [s.fetchCell (a + 1), s.fetchCell (a + 2), s.fetchCell (a + 3)] =
      some ((List.range op.nparams).map fun k : Nat => s.mem.read (a + k + 1).toNat) := by
  refine takeParams_eq_some.2 ⟨op.nparams_le, ?_⟩
  rw [take_fetchCells s a op.nparams_le, List.map_map]
  refine List.map_congr_left fun k hk => State.fetchCell_eq_some.2 ⟨?_, rfl⟩
  have := List.mem_range.1 hk
  exact ⟨by omega, by omega⟩

/-- Settles O2, check by check: each clause is a case of `DecodeResult` at the cells that the fetch port gives. -/
theorem decoderChecksInOrder : Obligations.DecoderChecksInOrder := by
  intro s a
  refine ⟨decodeAt_of_not_inRange, fun low high w hw => ?_⟩
  have word : s.fetchCell a = some w := State.fetchCell_eq_some.2 ⟨⟨low, high⟩, hw⟩
  refine ⟨fun neg => decode_eq_of_result (.negative w word neg), fun pos unknown => ?_, fun pos op code => ⟨?_, ?_⟩⟩
  · exact decode_eq_of_result (.unknown w word pos fun op code => unknown (code ▸ op.number_mem))
  · intro bad
    refine decode_eq_of_result (.badMode w op word pos code (bad.imp_left ?_))
    rintro ⟨k, hk, hkn, bad⟩
    exact modesFrom_eq_none.2 ⟨k, List.mem_range'_1.2 (by omega), bad⟩
  · intro good noHigh
    obtain ⟨ms, modes⟩ := exists_modesFrom_of_digits_lt good
    refine ⟨fun short => ?_, fun fits => ?_⟩
    · exact decode_eq_of_result (.truncated w op ms word pos code modes noHigh (takeParams_eq_none_of_short high short))
    · have cells := takeParams_eq_some_of_fits low fits
      have h := decode_of_cells pos code modes noHigh cells
      rw [← word] at h
      obtain ⟨opcode, operands⟩ : (s.decodeAt a).opcode = _ ∧ (s.decodeAt a).operands = _ := h
      refine ⟨opcode, Instr.operands_length opcode, by rw [Instr.width_of_opcode opcode, Nat.add_comm], fun k hk => ?_⟩
      obtain ⟨m, hm, digit⟩ := getElem?_of_modesFrom modes hk
      exact ⟨m, digit, by simp [operands, List.getElem?_zipWith, hm, hk]⟩

end Sys2Proof.Machine
end

section
/-! PROOFS. What an instruction with readable operands and a writable destination leaves (42_arith.md, 44_jumps.md,
45_compare.md), and the idioms of 30_encoding.md R79 as cases of it. -/

namespace Sys2Proof.Machine

variable {s : State}

theorem readsAs_imm (s : State) (v : Word) : ReadsAs s (.imm v) v := rfl

@[simp] theorem readEvents_imm (s : State) (v : Word) : readEvents s (.imm v) = [] := rfl

/-- Events emitted before it do not change what an operand evaluates to (60_exceptions.md R136). -/
theorem eval_after_events {o : Operand} {v : Word} (h : ReadsAs s o v) (es : List TraceEvent) :
    eval o { s with trace := s.trace ++ es } = .ok v { s with trace := s.trace ++ (es ++ readEvents s o) } := by
  rw [eval_of_readsAs (by exact h), ← List.append_assoc]
  rfl

/-- The two-source shape stores its result, when every operand is in memory and nothing traps (42_arith.md R109). -/
theorem binaryOp_storesCell {alu : Word → Word → State → Staged Word} {s1 s2 d : Operand} {a b r : Word} {n : Int}
    (ha : ReadsAs s s1 a) (hb : ReadsAs s s2 b) (halu : ∀ t : State, t.cfg = s.cfg → alu a b t = .ok r t)
    (hd : WritesTo s d n) :
    ∃ t, binaryOp alu s1 s2 d s = .next t ∧
      StoresCell s t n r 4 s.queue (readEvents s s1 ++ readEvents s s2 ++ [.write n]) := by
  obtain ⟨m, stored, written, others⟩ :=
    store_frame (s := { s with trace := s.trace ++ (readEvents s s1 ++ readEvents s s2) }) r hd
  rw [binaryOp, eval_of_readsAs ha, Staged.bind_ok, eval_after_events hb, Staged.bind_ok, halu _ (by rfl), Staged.bind_ok,
    stored, Staged.bind_ok]
  exact ⟨_, rfl, written, others, rfl, rfl, rfl, rfl, rfl, rfl, List.append_assoc ..⟩

/-- With a literal second source only the first one is read (20_memory.md R42). -/
theorem binaryOp_imm_storesCell {alu : Word → Word → State → Staged Word} {x d : Operand} {v k r : Word} {n : Int}
    (hx : ReadsAs s x v) (halu : ∀ t : State, t.cfg = s.cfg → alu v k t = .ok r t) (hd : WritesTo s d n) :
    ∃ t, binaryOp alu x (.imm k) d s = .next t ∧ StoresCell s t n r 4 s.queue (readEvents s x ++ [.write n]) := by
  simpa using binaryOp_storesCell hx (readsAs_imm s k) halu hd

/-- A taken jump lands on the value of its target, whenever that is evaluated (44_jumps.md R113). -/
theorem condJump_of_taken {takes : Word → Bool} {c t : Operand} {x v : Word} (hc : ReadsAs s c x) (taken : takes x = true)
    (ht : ReadsAs s t v) :
    condJump takes c t s = .next (afterPlain s v s.rb s.queue .cont (readEvents s c ++ readEvents s t)) := by
  rw [condJump, eval_of_readsAs hc, Staged.bind_ok, eval_after_events ht, taken]
  cases s.cfg.jumpTargetEval <;> rfl

/-- A jump that is not taken moves on by its width, and has read its target only under JUMP_TARGET_EVAL = eager
(44_jumps.md R113). -/
theorem condJump_of_not_taken {takes : Word → Bool} {c t : Operand} {x v : Word} (hc : ReadsAs s c x)
    (untaken : takes x = false) (ht : ReadsAs s t v) :
    condJump takes c t s = .next (afterPlain s (wrap64 (s.pc.toInt + 3)) s.rb s.queue .cont
      (readEvents s c ++ if s.cfg.jumpTargetEval = .eager then readEvents s t else [])) := by
  rw [condJump, eval_of_readsAs hc, Staged.bind_ok, eval_after_events ht, untaken]
  cases s.cfg.jumpTargetEval
  · simp [commit, State.finish, State.advance, afterPlain]
  · rfl

/-- `wrap64` of a word's own value is the word (00_scope.md R8). -/
@[simp] theorem wrap64_toInt (w : Word) : wrap64 w.toInt = w := BitVec.ofInt_toInt

/-- The negation of a word lies in i64 unless the word is -2^63 (41_alu.md R102). -/
theorem inI64_neg {v : Word} (h : v.toInt ≠ -(2 ^ 63)) : InI64 (-v.toInt) := by
  obtain ⟨lo, hi⟩ := inI64_toInt v
  exact ⟨by omega, by omega⟩

/-- `Rel(0)` names the cell at rb, the top of the stack (20_memory.md R36). -/
theorem effAddr_rel_zero (rb : Word) : effAddr (.rel 0) rb = .addr rb.toInt := by simp [effAddr]

/-- Settles O25: the jumps are taken or not by their literal condition, and the others are one two-source operation with a
literal second source. -/
theorem idiomsDoWhatTheyAreListedFor : Obligations.IdiomsDoWhatTheyAreListedFor := by
  intro s
  refine ⟨fun t v ht => ⟨?_, ?_⟩, fun inRange => ?_, fun x d v n hx hd => ⟨?_, ?_, fun fits => ?_⟩, ?_⟩
  · exact condJump_of_taken (readsAs_imm s 1) rfl ht
  · exact condJump_of_taken (readsAs_imm s 0) rfl ht
  · have read : ReadsAs s (.rel 0) (s.mem.read s.rb.toInt.toNat) := by
      rw [ReadsAs, effAddr_rel_zero]
      exact ⟨inRange, rfl⟩
    have event : readEvents s (.rel 0) = [.read s.rb.toInt] := by rw [readEvents, effAddr_rel_zero]
    exact event ▸ condJump_of_taken (readsAs_imm s 1) rfl read
  · refine binaryOp_imm_storesCell hx (fun t _ => ?_) hd
    have sum : v.toInt + (0 : Word).toInt = v.toInt := by simp
    rw [aluAdd, sum, narrow_eq_ok (.inl (inI64_toInt v)), wrap64_toInt]
  · exact binaryOp_imm_storesCell hx (fun t _ => rfl) hd
  · refine binaryOp_imm_storesCell hx (fun t same => ?_) hd
    have product : v.toInt * (-1 : Word).toInt = -v.toInt := by
      rw [show (-1 : Word).toInt = -1 from rfl, Int.mul_neg_one]
    rw [aluMul, product, narrow_eq_ok (fits.symm.imp inI64_neg (same ▸ ·)), wrap64, BitVec.ofInt_neg, BitVec.ofInt_toInt]
  · have stay := condJump_of_not_taken (takes := aluTest) (readsAs_imm s 0) rfl (readsAs_imm s 0)
    rw [readEvents_imm, ite_self] at stay
    exact stay

end Sys2Proof.Machine
end

section
/-! PROOFS. The outcome of a step (40_execution_cycle.md R87 to R92, R95): what a step answers from each run state, and
how `run` and step-once pass it on. -/

namespace Sys2Proof.Machine

variable {s t : State} {o : StepOutcome}

/-- Settles O27: neither terminal state is live. -/
theorem stepRunsTheDecodedInstruction : Obligations.StepRunsTheDecodedInstruction := fun _ => step_of_live

/-- Settles O28, by the terminal test of a step. -/
theorem terminalStatesAbsorb : Obligations.TerminalStatesAbsorb := fun _ => ⟨step_of_halted, step_of_faulted⟩

theorem exec_next (i : Instr) (s : State) : ∃ t, exec i s = .next t := by
  obtain ⟨reads, -, -, result⟩ := exec_result i s
  generalize exec i s = answer at result ⊢
  cases result <;> exact ⟨_, rfl⟩

/-- A step always answers a next state: a fault of the machine is one too (60_exceptions.md R120). -/
theorem step_next (s : State) : ∃ t, step s = .next t := by
  rcases live_or_terminal s with hl | hterm
  · rw [step_of_live hl]
    exact exec_next _ _
  · obtain ⟨o, ho⟩ := step_eq_of_terminal hterm
    exact ⟨_, ho⟩

/-- Settles O29, by the run state, and from a live one by the ways the instruction at pc can end. -/
theorem everyStepAnswersOneOutcome : Obligations.EveryStepAnswersOneOutcome := by
  intro s
  rcases live_or_terminal s with hl | hhalted | hfaulted
  · obtain ⟨t, ht⟩ := step_next s
    obtain ⟨reads, -, -, result⟩ := step_result_of_live hl ht
    cases result with
    | plain pc rb o signal base target notHlt notIn =>
      rcases signal with rfl | ⟨x, v, isOut, reads, rfl⟩
      · exact ⟨_, .cont, ht, rfl, rfl, rfl⟩
      · exact ⟨_, .output v, ht, rfl, rfl, rfl, x, isOut, reads⟩
    | stored a v queue inRange notJump taken notHlt => exact ⟨_, .cont, ht, rfl, rfl, rfl⟩
    | suspended d isIn empty noReads =>
      exact ⟨_, .needInput, ht, rfl, rfl, rfl, ⟨d, isIn⟩, empty, rfl, rfl, rfl, rfl⟩
    | halted isHlt noReads => exact ⟨_, .halted, ht, rfl, rfl, rfl, .inl isHlt⟩
    | faulted cause info grounds notHlt notStarved => exact ⟨_, .fault cause info, ht, rfl, rfl, rfl, rfl, rfl⟩
  · exact ⟨_, .halted, step_of_halted hhalted, rfl, rfl, hhalted, .inr hhalted⟩
  · exact ⟨_, .fault _ _, step_of_faulted hfaulted, rfl, rfl, hfaulted, rfl, rfl⟩

/-- The part of O29 that the host's loops go by. -/
theorem step_answers (s : State) : ∃ t o, step s = .next t ∧ t.outcome = some o := by
  obtain ⟨t, o, ht, ho, -⟩ := everyStepAnswersOneOutcome s
  exact ⟨t, o, ht, ho⟩

/-- An outcome that leaves the machine halted or faulted: not Continue, Output or NeedInput. -/
abbrev StepOutcome.Stops (o : StepOutcome) : Prop := o.canContinue = false ∧ o ≠ .needInput

/-- After an outcome that stops, the machine is halted or faulted (40_execution_cycle.md R88). -/
theorem not_live_of_stops (h : step s = .next t) (ho : t.outcome = some o) (stops : o.Stops) : ¬ t.Live := by
  obtain ⟨t', o', ht', ho', row⟩ := everyStepAnswersOneOutcome s
  cases ht'.symm.trans h
  cases ho'.symm.trans ho
  obtain ⟨cannot, supplied⟩ := stops
  cases o with
  | cont | output => cases cannot
  | needInput => exact absurd rfl supplied
  | halted | fault => simp [State.Live, row.2.1]

/-- Settles O30: `can_continue` is read off the one outcome of the step. -/
theorem stepOnceTellsWhetherItCanContinue : Obligations.StepOnceTellsWhetherItCanContinue := by
  intro s
  obtain ⟨t, o, ht, ho⟩ := step_answers s
  refine ⟨t, o, o.canContinue, ht, ho, by simp [stepOnce, ht, ho], ?_⟩
  cases o <;> simp [StepOutcome.canContinue]

theorem stepTimes_succ (h : step s = .next t) (k : Nat) : stepTimes (k + 1) s = stepTimes k t := by
  rw [stepTimes, h]

/-- `runLoop` returns the first outcome that is not Continue (40_execution_cycle.md R91). -/
theorem runLoop_first_signal {fuel : Nat} (h : runLoop fuel s = .next (t, some o)) :
    o ≠ .cont ∧ t.outcome = some o ∧ ∃ k, k < fuel ∧ stepTimes (k + 1) s = .next t ∧
      ∀ j, 1 ≤ j → j ≤ k → ∃ u, stepTimes j s = .next u ∧ u.outcome = some .cont := by
  induction fuel generalizing s with
  | zero => cases h
  | succ fuel ih =>
    obtain ⟨u, hu⟩ := step_next s
    simp only [runLoop, hu] at h
    split at h
    · next continues =>
      obtain ⟨signal, ho, k, hk, reached, before⟩ := ih h
      refine ⟨signal, ho, k + 1, by omega, by rwa [stepTimes_succ hu], fun j one_le le => ?_⟩
      obtain ⟨j, rfl⟩ := Nat.exists_eq_add_of_le' one_le
      rw [stepTimes_succ hu]
      cases j with
      | zero => exact ⟨u, rfl, continues⟩
      | succ j => exact before (j + 1) (by omega) (by omega)
    · next signals =>
      simp only [Host.Outcome.next.injEq, Prod.mk.injEq] at h
      obtain ⟨rfl, ho⟩ := h
      exact ⟨fun hc => signals (hc ▸ ho), ho, 0, by omega, stepTimes_succ hu 0, fun j _ _ => by omega⟩

/-- Settles O46: `run` is the loop from the state with the new value in Q. -/
theorem runReturnsTheFirstSignal : Obligations.RunReturnsTheFirstSignal := fun _ _ _ _ _ => runLoop_first_signal

end Sys2Proof.Machine
end

section
/-! PROOFS. What an instruction cannot tell: the run state and the outcome the last step left, the inputs behind the
pending ones, the events traced before (40_execution_cycle.md R90, R92; 60_exceptions.md R136). Suspension follows, and
input that is appended before its turn. -/

namespace Sys2Proof.Machine

variable {s t : State}

/-- What surrounds a state without being seen by the instruction executed in it. -/
structure Surroundings where
  runState : RunState
  outcome : Option StepOutcome
  later : List Word
  earlier : List TraceEvent

/-- The state in given surroundings: that run state and outcome, the later inputs behind its own, the earlier events
before its own. -/
def State.within (c : Surroundings) (s : State) : State :=
  { s with queue := s.queue ++ c.later, status := { s.status with state := c.runState }, outcome := c.outcome,
           trace := c.earlier ++ s.trace }

/-- The surroundings after a step that left `t`: its run state and outcome. -/
def Surroundings.after (c : Surroundings) (t : State) : Surroundings :=
  { c with runState := t.status.state, outcome := t.outcome }

/-- The same piece of execution, with its staging state changed. -/
def Staged.mapState {α : Type} (f : State → State) : Staged α → Staged α
  | .ok v t => .ok v (f t)
  | .raised cause info t => .raised cause info (f t)

variable (c : Surroundings)

theorem State.within_emit (s : State) (e : TraceEvent) : (s.within c).emit e = (s.emit e).within c := by
  simp [State.within, State.emit]

theorem Staged.bind_mapState {α β : Type} {f : State → State} {x : Staged α} {g h : α → State → Staged β}
    (commutes : ∀ v t, g v (f t) = (h v t).mapState f) : (x.mapState f).bind g = (x.bind h).mapState f := by
  cases x with
  | ok v t => exact commutes v t
  | raised cause info t => rfl

theorem eval_within (o : Operand) (s : State) : eval o (s.within c) = (eval o s).mapState (.within c) := by
  rcases eval_cases o s with ⟨v, hv, e⟩ | ⟨a, ha, e⟩ | ⟨hr, e⟩ <;> rw [e]
  · rw [eval_of_readsAs (by exact hv)]
    simp [Staged.mapState, State.within, readEvents]
  · exact eval_of_outOfRange ha
  · exact eval_of_reserved hr

theorem store_within (d : Operand) (v : Word) (s : State) :
    store d v (s.within c) = (store d v s).mapState (.within c) := by
  rcases store_cases d v s with ⟨a, ha, e⟩ | ⟨a, ha, e⟩ | ⟨⟨x, rfl⟩, -⟩ | ⟨hr, e⟩
  · rw [e, store_of_writesTo v (by exact ha)]
    exact congrArg (Staged.ok ()) (State.within_emit c (s.setCell a v) _)
  · rw [e]
    exact store_of_outOfRange v ha
  · rfl
  · rw [e, store, show effAddr d (s.within c).rb = .reserved from hr]
    rfl

theorem narrow_within (n : Int) (s : State) : narrow n (s.within c) = (narrow n s).mapState (.within c) := by
  rcases narrow_cases n s with ⟨fits, e⟩ | ⟨⟨outside, faults⟩, e⟩ <;> rw [e]
  · exact narrow_eq_ok fits
  · rw [narrow, if_neg outside, show (s.within c).cfg.arithOverflow = .fault from faults]
    rfl

/-- A commit keeps the later inputs and the earlier events, and overwrites the run state and the outcome. -/
theorem commit_within {x : Staged Signal} (h : commit s x = .next t) :
    commit (s.within c) (x.mapState (.within c)) = .next (t.within (c.after t)) := by
  rcases x with ⟨_ | _ | _ | _, u⟩ | ⟨cause, info, u⟩ <;> cases h <;> rfl

theorem binaryOp_within {alu : Word → Word → State → Staged Word} {s1 s2 d : Operand}
    (halu : ∀ a b t, alu a b (.within c t) = (alu a b t).mapState (.within c))
    (h : binaryOp alu s1 s2 d s = .next t) :
    binaryOp alu s1 s2 d (s.within c) = .next (t.within (c.after t)) := by
  rw [← commit_within c h, binaryOp, eval_within]
  refine congrArg (commit _) (Staged.bind_mapState fun a t1 => ?_)
  rw [eval_within]
  refine Staged.bind_mapState fun b t2 => ?_
  rw [halu]
  refine Staged.bind_mapState fun r t3 => ?_
  rw [store_within]
  exact Staged.bind_mapState fun _ t4 => rfl

theorem condJump_within {takes : Word → Bool} {x y : Operand} (h : condJump takes x y s = .next t) :
    condJump takes x y (s.within c) = .next (t.within (c.after t)) := by
  rw [← commit_within c h, condJump, eval_within]
  refine congrArg (commit _) (Staged.bind_mapState fun v t1 => ?_)
  rw [show (t1.within c).cfg = t1.cfg from rfl, eval_within]
  cases t1.cfg.jumpTargetEval <;> cases takes v
  · rfl
  · exact Staged.bind_mapState fun w t2 => rfl
  · exact Staged.bind_mapState fun w t2 => rfl
  · exact Staged.bind_mapState fun w t2 => rfl

/-- `in` with Q empty suspends, whatever its destination (43_io.md R111, decision D16). -/
theorem exec_inp_of_empty (d : Operand) (h : s.queue = []) :
    exec (.inp d) s = .next (s.finish .waitInput .needInput) := by
  rw [exec, execIn, h]
  rfl

/-- `in` with a value in Q and its destination in memory stores the value and takes it from Q (43_io.md R111). -/
theorem exec_inp_storesCell {d : Operand} {v : Word} {rest : List Word} {n : Int} (hq : s.queue = v :: rest)
    (hd : WritesTo s d n) : ∃ t, exec (.inp d) s = .next t ∧ StoresCell s t n v 2 rest [.write n] := by
  obtain ⟨m, stored, written, others⟩ := store_frame v hd
  simp only [exec, execIn, hq, stored, Staged.bind_ok]
  exact ⟨_, rfl, written, others, rfl, rfl, rfl, rfl, rfl, rfl, rfl⟩

/-- An instruction does in other surroundings what it does in its own, unless it is an `in` that they give its value. -/
theorem exec_within {i : Instr} (h : exec i s = .next t) (fed : ∀ d, i = .inp d → s.queue = [] → c.later = []) :
    exec i (s.within c) = .next (t.within (c.after t)) := by
  cases i with
  | add s1 s2 d => exact binaryOp_within c (fun a b t => narrow_within c _ t) h
  | mul s1 s2 d => exact binaryOp_within c (fun a b t => narrow_within c _ t) h
  | lt s1 s2 d => exact binaryOp_within c (fun a b t => rfl) h
  | eq s1 s2 d => exact binaryOp_within c (fun a b t => rfl) h
  | jit x y => exact condJump_within c h
  | jif x y => exact condJump_within c h
  | hlt => exact commit_within c (x := .ok .halted s) h
  | invalid cause => exact commit_within c (x := .raised _ _ s) h
  | inp d =>
    cases hq : s.queue with
    | nil =>
      cases (exec_inp_of_empty d hq).symm.trans h
      exact exec_inp_of_empty d (by simp [State.within, hq, fed d rfl hq])
    | cons v rest =>
      simp only [exec, execIn, hq] at h
      have head : (s.within c).queue = v :: (rest ++ c.later) := by simp [State.within, hq]
      rw [← commit_within c h, exec, execIn, head]
      simp only [store_within]
      exact congrArg (commit _) (Staged.bind_mapState fun _ t => rfl)
  | out x =>
    rw [← commit_within c h, exec, execOut, eval_within]
    exact congrArg (commit _) (Staged.bind_mapState fun v t => rfl)
  | arb x =>
    rw [← commit_within c h, exec, execArb, eval_within]
    refine congrArg (commit _) (Staged.bind_mapState fun v t1 => ?_)
    simp only [aluAdd, narrow_within]
    exact Staged.bind_mapState fun r t2 => rfl

/-- What a step that suspends started from, and all that it changes (40_execution_cycle.md R88, R90). -/
theorem eq_of_step_needInput (h : step s = .next t) (ho : t.outcome = some .needInput) :
    s.Live ∧ s.queue = [] ∧ t = (s.emit (.fetch s.pc.toInt)).finish .waitInput .needInput := by
  rcases live_or_terminal s with hl | hhalted | hfaulted
  · obtain ⟨reads, -, -, result⟩ := step_result_of_live hl h
    cases result with
    | plain pc rb o signal base target notHlt notIn => rcases signal with rfl | ⟨x, v, -, -, rfl⟩ <;> cases ho
    | stored | halted | faulted => cases ho
    | suspended d isIn empty noReads => exact ⟨hl, empty, rfl⟩
  · cases (step_of_halted hhalted).symm.trans h
    cases ho
  · cases (step_of_faulted hfaulted).symm.trans h
    cases ho

/-- A live step does in other live surroundings what it does in its own, unless they give it the value it lacks. -/
theorem step_within (hl : s.Live) (hc : (s.within c).Live) (h : step s = .next t)
    (fed : t.outcome = some .needInput → c.later = []) : step (s.within c) = .next (t.within (c.after t)) := by
  rw [step_of_live hl] at h
  rw [step_of_live hc, State.within_emit]
  refine exec_within c h fun d (isIn : s.decodeAt s.pc.toInt = .inp d) empty => fed ?_
  rw [isIn] at h
  cases (exec_inp_of_empty d empty).symm.trans h
  rfl

/-- Settles O45: later inputs are among what a step that does not suspend cannot tell. -/
theorem appendedInputWaitsItsTurn : Obligations.AppendedInputWaitsItsTurn := by
  intro s t ys h ho
  rcases live_or_terminal s with hl | hhalted | hfaulted
  · exact step_within ⟨s.status.state, s.outcome, ys, []⟩ hl hl h fun need => absurd need ho
  · cases (step_of_halted hhalted).symm.trans h
    exact step_of_halted hhalted
  · cases (step_of_faulted hfaulted).symm.trans h
    exact step_of_faulted hfaulted

/-- A step at an `in` with Q empty suspends there. -/
theorem step_of_starved {d : Operand} (hl : s.Live) (hd : s.decodeAt s.pc.toInt = .inp d) (hq : s.queue = []) :
    step s = .next ((s.emit (.fetch s.pc.toInt)).finish .waitInput .needInput) := by
  rw [step_of_live hl, hd]
  exact exec_inp_of_empty d hq

/-- Settles O37: suspended, the machine is live and decodes the same `in`, with Q empty still or with the value. -/
theorem suspendedInputCompletesOnceSupplied : Obligations.SuspendedInputCompletesOnceSupplied := by
  intro s d hl hd hq
  refine ⟨_, step_of_starved hl hd hq, rfl, rfl, rfl, rfl, rfl, hq,
    ⟨_, step_of_starved (.inr rfl) hd hq, rfl, ⟨rfl, rfl, rfl, rfl, rfl, rfl⟩, rfl⟩, fun v => ?_⟩
  generalize ht : (s.emit (.fetch s.pc.toInt)).finish .waitInput .needInput = t
  have again : step (t.appendInputs [v]) = exec (.inp d) ((t.appendInputs [v]).emit (.fetch s.pc.toInt)) := by
    subst ht
    rw [step_of_live (.inr rfl)]
    exact congrArg (exec · _) hd
  refine ⟨again, fun n hn => ?_⟩
  have supplied : ((t.appendInputs [v]).emit (.fetch s.pc.toInt)).queue = [v] := by simp [← ht, hq]
  obtain ⟨u, hu, stored, others, pc, rb, queue, cfg, status, outcome, trace⟩ :=
    exec_inp_storesCell (n := n) (d := d) supplied (by subst ht; exact hn)
  exact ⟨u, again.trans hu, stored, others, pc, rb, queue, cfg, status, outcome, trace.trans (List.append_assoc ..)⟩

end Sys2Proof.Machine
end

section
/-! PROOFS. The host's loop over steps, `drive` (40_execution_cycle.md R93, R94), and resumability (R100): inputs that
are all in Q from the start, and inputs each supplied after a NeedInput, lead to one end. -/

namespace Sys2Proof.Machine

variable {s t u : State} {o : StepOutcome} {outs outs' : List Word}

/-- The values an outcome hands to the host: that of Output. -/
def StepOutcome.emitted : StepOutcome → List Word
  | .output v => [v]
  | .cont | .needInput | .halted | .fault _ _ => []

theorem StepOutcome.emitted_of_cannot_continue (h : o.canContinue = false) : o.emitted = [] := by
  cases o with
  | output v => cases h
  | cont | needInput | halted | fault => rfl

theorem emittedBy_succ (h : step s = .next t) (ho : t.outcome = some o) (k : Nat) :
    emittedBy (k + 1) s = o.emitted ++ emittedBy k t := by
  cases o <;> simp [emittedBy, h, ho, StepOutcome.emitted]

/-- After Continue and Output the loop goes on. -/
theorem drive_of_canContinue (h : step s = .next t) (ho : t.outcome = some o) (goesOn : o.canContinue = true)
    (fuel : Nat) (pending outs : List Word) :
    drive (fuel + 1) pending s outs = drive fuel pending t (outs ++ o.emitted) := by
  cases o with
  | cont | output => simp [drive, h, ho, StepOutcome.emitted]
  | needInput | halted | fault => cases goesOn

/-- Halted and Fault end the loop. -/
theorem drive_of_stops (h : step s = .next t) (ho : t.outcome = some o) (stops : o.Stops) (fuel : Nat)
    (pending outs : List Word) : drive (fuel + 1) pending s outs = .next (t, outs, some o) := by
  obtain ⟨cannot, supplied⟩ := stops
  cases o with
  | cont | output => cases cannot
  | needInput => exact absurd rfl supplied
  | halted | fault => simp [drive, h, ho]

/-- NeedInput with no value left is the host's error (40_execution_cycle.md R94). -/
theorem drive_of_underflow (h : step s = .next t) (ho : t.outcome = some .needInput) (fuel : Nat) (outs : List Word) :
    drive (fuel + 1) [] s outs = .fault .inputUnderflow := by
  simp [drive, h, ho]

/-- NeedInput with a value left appends it and goes on. -/
theorem drive_of_supplied (h : step s = .next t) (ho : t.outcome = some .needInput) (fuel : Nat) (v : Word)
    (pending outs : List Word) :
    drive (fuel + 1) (v :: pending) s outs = drive fuel pending (t.appendInputs [v]) outs := by
  simp [drive, h, ho]

/-- The three ways of the host's loop after an outcome. -/
theorem StepOutcome.needInput_or_canContinue_or_stops (o : StepOutcome) :
    o = .needInput ∨ o.canContinue = true ∨ o.Stops := by
  cases o <;> simp [StepOutcome.Stops, StepOutcome.canContinue]

/-- With no value to supply, the loop that ends has run the machine to a terminal state and collected its outputs. -/
theorem drive_nil_ends {fuel : Nat} (h : drive fuel [] s outs = .next (t, outs', some o)) :
    t.outcome = some o ∧ ¬ t.Live ∧
      ∃ k, k ≤ fuel ∧ stepTimes k s = .next t ∧ outs' = outs ++ emittedBy k s := by
  induction fuel generalizing s outs with
  | zero => cases h
  | succ fuel ih =>
    obtain ⟨u, p, hu, hp⟩ := step_answers s
    rcases p.needInput_or_canContinue_or_stops with rfl | goesOn | stops
    · cases (drive_of_underflow hu hp fuel outs).symm.trans h
    · rw [drive_of_canContinue hu hp goesOn] at h
      obtain ⟨ho, terminal, k, hk, reached, collected⟩ := ih h
      refine ⟨ho, terminal, k + 1, by omega, by rwa [stepTimes_succ hu], ?_⟩
      rw [collected, emittedBy_succ hu hp, List.append_assoc]
    · cases (drive_of_stops hu hp stops fuel [] outs).symm.trans h
      refine ⟨hp, not_live_of_stops hu hp stops, 1, by omega, stepTimes_succ hu 0, ?_⟩
      rw [emittedBy_succ hu hp, StepOutcome.emitted_of_cannot_continue stops.1]
      simp [emittedBy]

/-- With no value to supply, input underflow arises where the machine has been run to a suspended state. -/
theorem drive_nil_underflows {fuel : Nat} (h : drive fuel [] s outs = .fault .inputUnderflow) :
    ∃ k t, k ≤ fuel ∧ stepTimes k s = .next t ∧ t.status.state = .waitInput ∧ t.outcome = some .needInput := by
  induction fuel generalizing s outs with
  | zero => cases h
  | succ fuel ih =>
    obtain ⟨u, p, hu, hp⟩ := step_answers s
    rcases p.needInput_or_canContinue_or_stops with rfl | goesOn | stops
    · obtain ⟨-, -, suspended⟩ := eq_of_step_needInput hu hp
      exact ⟨1, u, by omega, stepTimes_succ hu 0, by rw [suspended]; rfl, hp⟩
    · rw [drive_of_canContinue hu hp goesOn] at h
      obtain ⟨k, t, hk, reached, suspended⟩ := ih h
      exact ⟨k + 1, t, by omega, by rwa [stepTimes_succ hu], suspended⟩
    · cases (drive_of_stops hu hp stops fuel [] outs).symm.trans h

/-- Settles O47: `map` is the loop from the state with all inputs in Q and no value left to supply. -/
theorem mapCollectsOutputsInOrder : Obligations.MapCollectsOutputsInOrder :=
  ⟨fun _ _ _ _ _ _ => drive_nil_ends, fun _ _ _ => drive_nil_underflows⟩

/-- The machine `b` lacks, of what the machine `a` has in Q, the values that are pending. Beside them the two may differ
in their ports, and in whether a live one is suspended. -/
structure Lacks (pending : List Word) (a b : State) : Prop where
  cfg : a.cfg = b.cfg
  mem : a.mem = b.mem
  pc : a.pc = b.pc
  rb : a.rb = b.rb
  queue : a.queue = b.queue ++ pending
  status : a.status = { b.status with state := a.status.state }
  runState : a.status.state = b.status.state ∨ a.Live ∧ b.Live

variable {a b a' b' : State} {pending : List Word}

theorem Lacks.appendInputs (s : State) (xs : List Word) : Lacks xs (s.appendInputs xs) s :=
  ⟨rfl, rfl, rfl, rfl, rfl, rfl, .inl rfl⟩

theorem Lacks.live_iff (h : Lacks pending a b) : a.Live ↔ b.Live := by
  rcases h.runState with same | ⟨ha, hb⟩
  · simp only [State.Live, same]
  · exact iff_of_true ha hb

theorem Lacks.sameEnd (h : Lacks pending a b) (same : a.status = b.status) : SameEnd a b :=
  ⟨h.cfg, h.mem, h.pc, h.rb, same⟩

/-- The state as if nothing had been traced. -/
def State.untraced (s : State) : State := { s with trace := [] }

/-- A state is itself without its trace, in the surroundings that hold it. -/
theorem State.eq_within_untraced (s : State) :
    s = s.untraced.within ⟨s.status.state, s.outcome, [], s.trace⟩ := by
  simp [State.within, State.untraced]

/-- The machine that has more in Q is the other one without its trace, in the surroundings that hold the rest. -/
theorem Lacks.eq_within_untraced (h : Lacks pending a b) :
    a = b.untraced.within ⟨a.status.state, a.outcome, pending, a.trace⟩ := by
  obtain ⟨cfg, mem, pc, rb, queue, status, outcome, trace⟩ := a
  obtain ⟨rfl, rfl, rfl, rfl, rfl, hstatus, -⟩ := h
  simp only [State.within, State.untraced, List.append_nil, ← hstatus]

/-- A step of the machine that lacks values is a step of the other one too, with the same outcome, unless it suspends
for one of them. -/
theorem Lacks.step_alike (h : Lacks pending a b) (hb : step b = .next b')
    (fed : b'.outcome = some .needInput → pending = []) :
    ∃ a', step a = .next a' ∧ a'.outcome = b'.outcome ∧ a'.status = b'.status ∧ Lacks pending a' b' := by
  by_cases hl : b.Live
  · obtain ⟨t, ht⟩ := step_next b.untraced
    have hb' := step_within (s := b.untraced) ⟨b.status.state, b.outcome, [], b.trace⟩ hl hl ht fun _ => rfl
    rw [← State.eq_within_untraced b] at hb'
    cases hb.symm.trans hb'
    have ha' := step_within (s := b.untraced) ⟨a.status.state, a.outcome, pending, a.trace⟩ hl (h.live_iff.2 hl) ht
      fed
    rw [← h.eq_within_untraced] at ha'
    exact ⟨_, ha', rfl, rfl, rfl, rfl, rfl, rfl, by simp [State.within, Surroundings.after], rfl, .inl rfl⟩
  · have same : a.status = b.status := by
      rw [h.status, h.runState.resolve_right fun both => hl both.2]
    have ports : ∀ p q, Lacks pending { a with outcome := p } { b with outcome := q } := fun _ _ =>
      ⟨h.cfg, h.mem, h.pc, h.rb, h.queue, h.status, h.runState⟩
    rcases (live_or_terminal b).resolve_left hl with hhalted | hfaulted
    · cases (step_of_halted hhalted).symm.trans hb
      exact ⟨_, step_of_halted (same ▸ hhalted), rfl, same, ports _ _⟩
    · cases (step_of_faulted hfaulted).symm.trans hb
      exact ⟨_, step_of_faulted (same ▸ hfaulted), by simp only [same], same, ports _ _⟩

/-- A suspended machine that is given its next value lacks only the rest. -/
theorem Lacks.supply {v : Word} (h : Lacks (v :: pending) a b) (hb : step b = .next b')
    (starved : b'.outcome = some .needInput) : Lacks pending a (b'.appendInputs [v]) := by
  obtain ⟨hl, empty, rfl⟩ := eq_of_step_needInput hb starved
  exact ⟨h.cfg, h.mem, h.pc, h.rb, by simp [h.queue, empty], h.status, .inr ⟨h.live_iff.2 hl, .inr rfl⟩⟩

/-- A step of the machine that has all its inputs, unless it suspends, is a step of the other one once that has been
supplied with the value it lacks, if it needs one. -/
theorem Lacks.catches_up (h : Lacks pending a b) (ha : step a = .next a') (supplied : a'.outcome ≠ some .needInput) :
    ∃ j rest b₁ b', (∀ fuel outs, drive (fuel + j) pending b outs = drive fuel rest b₁ outs) ∧
      step b₁ = .next b' ∧ a'.outcome = b'.outcome ∧ a'.status = b'.status ∧ Lacks rest a' b' := by
  obtain ⟨b', o, hb, ho⟩ := step_answers b
  by_cases starved : o = .needInput
  · subst starved
    cases pending with
    | nil =>
      obtain ⟨a₁, ha₁, outcome, -⟩ := h.step_alike hb fun _ => rfl
      cases ha.symm.trans ha₁
      exact absurd (outcome.trans ho) supplied
    | cons v rest =>
      obtain ⟨b₂, hb₂⟩ := step_next (b'.appendInputs [v])
      obtain ⟨a₁, ha₁, alike⟩ := (h.supply hb ho).step_alike hb₂ fun need => by
        simpa using (eq_of_step_needInput hb₂ need).2.1
      cases ha.symm.trans ha₁
      exact ⟨1, rest, _, b₂, fun fuel outs => drive_of_supplied hb ho fuel v rest outs, hb₂, alike⟩
  · obtain ⟨a₁, ha₁, alike⟩ := h.step_alike hb fun need => absurd (Option.some.inj (ho.symm.trans need)) starved
    cases ha.symm.trans ha₁
    exact ⟨0, pending, b, b', fun _ _ => rfl, hb, alike⟩

/-- A run with all inputs in Q that ends gives a run on demand with the same end. -/
theorem Lacks.drive_of_drive_nil {fuel : Nat} (h : Lacks pending a b)
    (ends : drive fuel [] a outs = .next (t, outs', some o)) :
    ∃ m u, drive m pending b outs = .next (u, outs', some o) ∧ SameEnd t u := by
  induction fuel generalizing pending a b outs with
  | zero => cases ends
  | succ fuel ih =>
    obtain ⟨a', p, ha, hp⟩ := step_answers a
    by_cases starved : p = .needInput
    · subst starved
      cases (drive_of_underflow ha hp fuel outs).symm.trans ends
    obtain ⟨j, rest, b₁, b', supplied, hb, outcome, status, lacks⟩ := h.catches_up ha (by simpa [hp] using starved)
    rw [hp] at outcome
    rcases p.needInput_or_canContinue_or_stops.resolve_left starved with goesOn | stops
    · rw [drive_of_canContinue ha hp goesOn] at ends
      obtain ⟨m, u, demand, sameEnd⟩ := ih lacks ends
      exact ⟨m + 1 + j, u, by rw [supplied, drive_of_canContinue hb outcome.symm goesOn, demand], sameEnd⟩
    · cases (drive_of_stops ha hp stops fuel [] outs).symm.trans ends
      exact ⟨0 + 1 + j, b', by rw [supplied, drive_of_stops hb outcome.symm stops], lacks.sameEnd status⟩

/-- A run on demand that ends gives a run with all inputs in Q with the same end. -/
theorem Lacks.drive_nil_of_drive {fuel : Nat} (h : Lacks pending a b)
    (ends : drive fuel pending b outs = .next (u, outs', some o)) :
    ∃ n t, drive n [] a outs = .next (t, outs', some o) ∧ SameEnd t u := by
  induction fuel generalizing pending a b outs with
  | zero => cases ends
  | succ fuel ih =>
    obtain ⟨b', p, hb, hp⟩ := step_answers b
    by_cases starved : p = .needInput
    · subst starved
      cases pending with
      | nil => cases (drive_of_underflow hb hp fuel outs).symm.trans ends
      | cons v rest =>
        rw [drive_of_supplied hb hp] at ends
        exact ih (h.supply hb hp) ends
    obtain ⟨a', ha, outcome, status, lacks⟩ := h.step_alike hb fun need =>
      absurd (Option.some.inj (hp.symm.trans need)) starved
    rw [hp] at outcome
    rcases p.needInput_or_canContinue_or_stops.resolve_left starved with goesOn | stops
    · rw [drive_of_canContinue hb hp goesOn] at ends
      obtain ⟨n, t, all, sameEnd⟩ := ih lacks ends
      exact ⟨n + 1, t, by rw [drive_of_canContinue ha outcome goesOn, all], sameEnd⟩
    · cases (drive_of_stops hb hp stops fuel pending outs).symm.trans ends
      exact ⟨0 + 1, a', drive_of_stops ha outcome stops 0 [] _, lacks.sameEnd status⟩

/-- Settles O48: `map` starts where every input is in Q, the run on demand where all of them are lacking. -/
theorem resumedRunsEndAlike : Obligations.ResumedRunsEndAlike := by
  intro s xs outs o
  have start := Lacks.appendInputs s xs
  exact ⟨fun _ _ ends => start.drive_of_drive_nil ends, fun _ _ ends => start.drive_nil_of_drive ends⟩

end Sys2Proof.Machine
end

section
/-! PROOFS. The functions of the ALU (41_alu.md R101 to R106): narrowing keeps a value in i64 and treats any other by
ARITH_OVERFLOW, and a comparison or a test goes by the operands' signed values. -/

namespace Sys2Proof.Machine

variable {s : State}

/-- An exact result in i64 is narrowed to the word of that value. -/
theorem narrow_of_inI64 {n : Int} (inside : InI64 n) (s : State) : ∃ r, narrow n s = .ok r s ∧ r.toInt = n :=
  ⟨wrap64 n, narrow_eq_ok (.inl inside), toInt_wrap64_of_inI64 inside⟩

/-- Outside i64, ARITH_OVERFLOW = fault raises EF_OVERFLOW with no info (41_alu.md R106). -/
theorem narrow_eq_raised {n : Int} (outside : ¬ InI64 n) (faults : s.cfg.arithOverflow = .fault) :
    narrow n s = .raised .efOverflow none s := by
  rcases narrow_cases n s with ⟨inside | wraps, -⟩ | ⟨-, e⟩
  · exact absurd inside outside
  · cases faults.symm.trans wraps
  · exact e

/-- Settles O12: both functions narrow their exact result, by the three cases of `narrow`. -/
theorem aluNarrowsExactResults : Obligations.AluNarrowsExactResults := fun _ _ t =>
  ⟨(narrow_of_inI64 · t), fun _ wraps => narrow_eq_ok (.inr wraps), narrow_eq_raised,
    (narrow_of_inI64 · t), fun _ wraps => narrow_eq_ok (.inr wraps), narrow_eq_raised⟩

/-- TEST is true of the words whose value is not 0 (41_alu.md R105). -/
theorem aluTest_iff {a : Word} : aluTest a = true ↔ a.toInt ≠ 0 := by
  rw [aluTest, bne_iff_ne]
  exact BitVec.toInt_inj.symm.not

/-- Settles O13: the order is that of the signed values, and words are equal when their signed values are. -/
theorem aluComparesSignedValues : Obligations.AluComparesSignedValues := by
  intro a b
  refine ⟨fun less => ?_, fun notLess => ?_, fun same => ?_, fun differ => ?_, aluTest_iff⟩
  · rw [aluLt, if_pos less]; rfl
  · rw [aluLt, if_neg notLess.not_gt]; rfl
  · rw [aluEq, if_pos (BitVec.eq_of_toInt_eq same)]; rfl
  · rw [aluEq, if_neg (ne_of_apply_ne BitVec.toInt differ)]; rfl

end Sys2Proof.Machine
end

section
/-! PROOFS. The encoding of an instruction with three parameters (30_encoding.md R59): its word is the canonical number of
its opcode and modes. -/

namespace Sys2Proof

variable {strict : Bool} {p1 p2 p3 : Option Word} {i : Instr} {op : Opcode} {ms : List Mode} {ps : List Word}

/-- The canonical word of an opcode and modes is read as that opcode on the tagged cells, whatever STRICT_DECODE is
(30_encoding.md R71, R78). -/
theorem decode_canonicalNumber (hms : ms.length = op.nparams) (cells : takeParams op.nparams [p1, p2, p3] = some ps)
    (opcode : i.opcode = some op) (operands : i.operands = List.zipWith Mode.tag ms ps) :
    decode strict (some (BitVec.ofNat 64 (canonicalNumber op ms))) p1 p2 p3 = i := by
  have small := canonicalNumber_lt hms
  have value : (BitVec.ofNat 64 (canonicalNumber op ms)).toNat = canonicalNumber op ms :=
    BitVec.toNat_ofNat .. ▸ Nat.mod_eq_of_lt (by omega)
  obtain ⟨code, modes, low⟩ := (eq_canonicalNumber_iff hms).1 value
  have pos : 0 ≤ (BitVec.ofNat 64 (canonicalNumber op ms)).toInt := BitVec.toInt_pos_iff.2 (by omega)
  exact decode_eq_of_result (.instr _ op ms ps i rfl pos code modes (fun _ => low) cells opcode operands)

theorem canonicalNumber_three (op : Opcode) (a b c : Mode) :
    canonicalNumber op [a, b, c] = op.number + 100 * a.digit + 1000 * b.digit + 10000 * c.digit := by
  simp only [canonicalNumber, List.map_cons, List.map_nil, Nat.ofDigits_cons, Nat.ofDigits_nil]
  omega

/-- The word `CBA` above the number of an opcode with three parameters is read as its instruction, in any modes. -/
theorem encodedW4 {mk : Operand → Operand → Operand → Instr} (op : Opcode) (three : op.nparams = 3)
    (opcode : ∀ a b c, (mk a b c).opcode = some op) (operands : ∀ a b c, (mk a b c).operands = [a, b, c]) :
    Machine.EncodedW4 op.number mk := by
  intro strict a b c p1 p2 p3
  rw [← canonicalNumber_three]
  exact decode_canonicalNumber (ps := [p1, p2, p3]) three.symm (by rw [three]; rfl) (opcode ..) (operands ..)

end Sys2Proof
end

section
/-! PROOFS. The rules of the two-source instructions (42_arith.md): each fault of the shape `binaryOp` where it is the first
one met (60_exceptions.md R127), and `add` and `mul` as that shape over `narrow`. -/

namespace Sys2Proof.Machine

variable {s : State} {mk : Operand → Operand → Operand → Instr} {alu : Word → Word → State → Staged Word}
  {s1 s2 d : Operand} {a b r : Word} {cause : Cause} {info : Option Int}

/-- A fault of the first source ends the instruction before any event. -/
theorem binaryOp_of_first_raised (h : eval s1 s = .raised cause info s) :
    binaryOp alu s1 s2 d s = .next (afterFault s cause info []) := by
  rw [binaryOp, h, Staged.bind_raised, commit_raised_nil]

/-- A fault of the second source comes after the events of the first. -/
theorem binaryOp_of_second_raised (ha : ReadsAs s s1 a)
    (h : ∀ es, eval s2 { s with trace := s.trace ++ es } = .raised cause info { s with trace := s.trace ++ es }) :
    binaryOp alu s1 s2 d s = .next (afterFault s cause info (readEvents s s1)) := by
  rw [binaryOp, eval_of_readsAs ha, Staged.bind_ok, h, Staged.bind_raised, commit_raised]

/-- With both sources readable the result is computed after their events and before the destination is looked at. -/
theorem binaryOp_of_readsAs (ha : ReadsAs s s1 a) (hb : ReadsAs s s2 b) :
    binaryOp alu s1 s2 d s = commit s
      ((alu a b { s with trace := s.trace ++ (readEvents s s1 ++ readEvents s s2) }).bind fun r t =>
        (store d r t).bind fun _ t => .ok .cont (t.advance 4)) := by
  rw [binaryOp, eval_of_readsAs ha, Staged.bind_ok, eval_after_events hb, Staged.bind_ok]

/-- A fault of the ALU comes after the events of both sources, whatever the destination is. -/
theorem binaryOp_of_alu_raised (ha : ReadsAs s s1 a) (hb : ReadsAs s s2 b)
    (halu : ∀ t : State, t.cfg = s.cfg → alu a b t = .raised cause info t) :
    binaryOp alu s1 s2 d s = .next (afterFault s cause info (readEvents s s1 ++ readEvents s s2)) := by
  rw [binaryOp_of_readsAs ha hb, halu _ (by rfl), Staged.bind_raised, commit_raised]

/-- A fault of the destination comes last, with no event of its own. -/
theorem binaryOp_of_store_raised (ha : ReadsAs s s1 a) (hb : ReadsAs s s2 b)
    (halu : ∀ t : State, t.cfg = s.cfg → alu a b t = .ok r t)
    (h : ∀ es, store d r { s with trace := s.trace ++ es } = .raised cause info { s with trace := s.trace ++ es }) :
    binaryOp alu s1 s2 d s = .next (afterFault s cause info (readEvents s s1 ++ readEvents s s2)) := by
  rw [binaryOp_of_readsAs ha hb, halu _ (by rfl), Staged.bind_ok, h, Staged.bind_raised, commit_raised]

/-- A store through a reserved placeholder raises EF_RESERVED_OPERAND (30_encoding.md R63). -/
theorem store_of_reserved (h : Reserved d) (v : Word) (s : State) :
    store d v s = .raised .efReservedOperand none s := by
  rw [store, effAddr_of_reserved h]

/-- An instruction of the two-source shape obeys the common rule, for an ALU function that gives `result` wherever it does
not overflow. -/
theorem binaryRule_of_binaryOp {result : Word → Word → Word} {overflows : State → Word → Word → Prop}
    (shape : ∀ s1 s2 d s, exec (mk s1 s2 d) s = binaryOp alu s1 s2 d s)
    (halu : ∀ (s t : State) (a b : Word), ¬ overflows s a b → t.cfg = s.cfg → alu a b t = .ok (result a b) t) :
    BinaryRule mk result overflows := by
  intro s s1 s2 d
  rw [shape]
  refine ⟨fun a b n ha hb ho hd => ?stores, fun n h => ?first, fun a n ha h => ?second, fun a b v ha hb ho h => ?immediate,
    fun a b n ha hb ho h => ?outside, fun h => ?firstReserved, fun a ha h => ?secondReserved,
    fun a b ha hb ho h => ?destReserved⟩
  case stores => exact binaryOp_storesCell ha hb (halu s · a b ho) hd
  case first => exact binaryOp_of_first_raised (eval_of_outOfRange h)
  case second => exact binaryOp_of_second_raised ha fun _ => eval_of_outOfRange h
  case immediate => exact binaryOp_of_store_raised ha hb (halu s · a b ho) fun _ => h ▸ store_imm ..
  case outside => exact binaryOp_of_store_raised ha hb (halu s · a b ho) fun _ => store_of_outOfRange _ h
  case firstReserved => exact binaryOp_of_first_raised (eval_of_reserved (effAddr_of_reserved h _))
  case secondReserved => exact binaryOp_of_second_raised ha fun _ => eval_of_reserved (effAddr_of_reserved h _)
  case destReserved => exact binaryOp_of_store_raised ha hb (halu s · a b ho) fun _ => store_of_reserved h ..

/-- Under ARITH_OVERFLOW = fault the exact result `value a b` lies outside i64 (41_alu.md R106). -/
def TrapsOutside (value : Word → Word → Int) (s : State) (a b : Word) : Prop :=
  s.cfg.arithOverflow = .fault ∧ ¬ InI64 (value a b)

/-- A result that does not trap is narrowed without a fault (41_alu.md R106). -/
theorem narrow_of_not_trapsOutside {value : Word → Word → Int} {t : State} (h : ¬ TrapsOutside value s a b)
    (same : t.cfg = s.cfg) : narrow (value a b) t = .ok (wrap64 (value a b)) t := by
  refine narrow_eq_ok (or_iff_not_imp_left.2 fun outside => ?_)
  cases mode : t.cfg.arithOverflow with
  | wrap => rfl
  | fault => exact absurd ⟨same ▸ mode, outside⟩ h

/-- What `add` and `mul` share: a two-source instruction that narrows an exact result obeys the common rule, and traps
before the destination is looked at (42_arith.md R109, R110). -/
theorem binaryRule_and_overflowTraps_of_narrow (value : Word → Word → Int)
    (shape : ∀ s1 s2 d s, exec (mk s1 s2 d) s = binaryOp (fun a b t => narrow (value a b) t) s1 s2 d s) :
    BinaryRule mk (fun a b => wrap64 (value a b)) (TrapsOutside value) ∧ OverflowTraps mk (TrapsOutside value) := by
  refine ⟨binaryRule_of_binaryOp shape fun _ _ _ _ => narrow_of_not_trapsOutside,
    fun s s1 s2 d a b ha hb ⟨faults, outside⟩ => ?_⟩
  rw [shape]
  exact binaryOp_of_alu_raised ha hb fun t same => narrow_eq_raised outside (same ▸ faults)

/-- Settles O14: `add` has format W4 and is the two-source shape that narrows the exact sum. -/
theorem addStoresTheSum : Obligations.AddStoresTheSum :=
  ⟨encodedW4 .add rfl (fun _ _ _ => rfl) (fun _ _ _ => rfl),
    binaryRule_and_overflowTraps_of_narrow (fun a b => a.toInt + b.toInt) fun _ _ _ _ => rfl⟩

/-- Settles O15: `mul` has format W4 and is the two-source shape that narrows the exact product. -/
theorem mulStoresTheProduct : Obligations.MulStoresTheProduct :=
  ⟨encodedW4 .mul rfl (fun _ _ _ => rfl) (fun _ _ _ => rfl),
    binaryRule_and_overflowTraps_of_narrow (fun a b => a.toInt * b.toInt) fun _ _ _ _ => rfl⟩

end Sys2Proof.Machine
end

section
/-! PROOFS. The encoding of an instruction with one parameter (30_encoding.md R59): its word is the canonical number of its
opcode and mode. -/

namespace Sys2Proof

theorem canonicalNumber_one (op : Opcode) (a : Mode) : canonicalNumber op [a] = op.number + 100 * a.digit := by
  rw [canonicalNumber, List.map_singleton, Nat.ofDigits_singleton]

/-- The word `A` above the number of an opcode with one parameter is read as its instruction, in any mode, whatever cells
follow the parameter. -/
theorem encodedW2 {mk : Operand → Instr} (op : Opcode) (one : op.nparams = 1) (opcode : ∀ a, (mk a).opcode = some op)
    (operands : ∀ a, (mk a).operands = [a]) : Machine.EncodedW2 op.number mk := by
  intro strict a p1 p2 p3
  rw [← canonicalNumber_one]
  exact decode_canonicalNumber (ps := [p1]) one.symm (by rw [one]; rfl) (opcode _) (operands _)

end Sys2Proof
end

section
/-! PROOFS. The rules of `in` and `out` (43_io.md): what each leaves when its one operand faults, and what `out` leaves when
it can be read. -/

namespace Sys2Proof.Machine

variable {s : State} {o d : Operand} {v : Word} {rest : List Word} {cause : Cause} {info : Option Int}

/-- A fault of the destination ends `in` before the value is taken from Q (43_io.md R111). -/
theorem exec_inp_of_store_raised (hq : s.queue = v :: rest) (h : store d v s = .raised cause info s) :
    exec (.inp d) s = .next (afterFault s cause info []) := by
  simp only [exec, execIn, hq, h, Staged.bind_raised, commit_raised_nil]

/-- `out` with a readable source delivers its value and moves pc by 2 (43_io.md R112). -/
theorem exec_out_of_readsAs (h : ReadsAs s o v) :
    exec (.out o) s = .next (afterPlain s (wrap64 (s.pc.toInt + 2)) s.rb s.queue (.output v) (readEvents s o)) := by
  rw [exec, execOut, eval_of_readsAs h]
  rfl

/-- A fault of the source ends `out` with no value delivered (43_io.md R112). -/
theorem exec_out_of_eval_raised (h : eval o s = .raised cause info s) :
    exec (.out o) s = .next (afterFault s cause info []) := by
  rw [exec, execOut, h, Staged.bind_raised, commit_raised_nil]

/-- Settles O16: `in` has format W2, suspends with Q empty, and else ends as the store of the head of Q does. -/
theorem inTakesTheHeadOfTheQueue : Obligations.InTakesTheHeadOfTheQueue := by
  refine ⟨encodedW2 .inp rfl (fun _ => rfl) (fun _ => rfl), fun s d => ⟨exec_inp_of_empty d, fun v rest hq =>
    ⟨fun n hd => ?stores, fun x hx => ?immediate, fun n h => ?outside, fun h => ?reserved⟩⟩⟩
  case stores => exact exec_inp_storesCell hq hd
  case immediate => exact exec_inp_of_store_raised hq (hx ▸ store_imm x v s)
  case outside => exact exec_inp_of_store_raised hq (store_of_outOfRange v h)
  case reserved => exact exec_inp_of_store_raised hq (store_of_reserved h v s)

/-- Settles O17: `out` has format W2 and ends as the evaluation of its source does. -/
theorem outDeliversTheValue : Obligations.OutDeliversTheValue := by
  refine ⟨encodedW2 .out rfl (fun _ => rfl) (fun _ => rfl), fun s o => ⟨fun v h => ?readable, fun n h => ?outside,
    fun h => ?reserved⟩⟩
  case readable => exact exec_out_of_readsAs h
  case outside => exact exec_out_of_eval_raised (eval_of_outOfRange h)
  case reserved => exact exec_out_of_eval_raised (eval_of_reserved (effAddr_of_reserved h _))

end Sys2Proof.Machine
end

section
/-! PROOFS. The encoding of an instruction with two parameters (30_encoding.md R59): its word is the canonical number of its
opcode and modes. -/

namespace Sys2Proof

theorem canonicalNumber_two (op : Opcode) (a b : Mode) :
    canonicalNumber op [a, b] = op.number + 100 * a.digit + 1000 * b.digit := by
  simp only [canonicalNumber, List.map_cons, List.map_nil, Nat.ofDigits_cons, Nat.ofDigits_nil]
  omega

/-- The word `BA` above the number of an opcode with two parameters is read as its instruction, in any modes, whatever cell
follows the parameters. -/
theorem encodedW3 {mk : Operand → Operand → Instr} (op : Opcode) (two : op.nparams = 2)
    (opcode : ∀ a b, (mk a b).opcode = some op) (operands : ∀ a b, (mk a b).operands = [a, b]) :
    Machine.EncodedW3 op.number mk := by
  intro strict a b p1 p2 p3
  rw [← canonicalNumber_two]
  exact decode_canonicalNumber (ps := [p1, p2]) two.symm (by rw [two]; rfl) (opcode ..) (operands ..)

end Sys2Proof
end

section
/-! PROOFS. The rules of `jit` and `jif` (44_jumps.md): what the shape `condJump` leaves when the target is not looked at and
when an operand faults, and both instructions as that shape over TEST. -/

namespace Sys2Proof.Machine

variable {s : State} {takes : Word → Bool} {c t : Operand} {x : Word} {cause : Cause} {info : Option Int}

/-- Under JUMP_TARGET_EVAL = lazy a jump that is not taken moves on by its width, whatever its target is
(44_jumps.md R113). -/
theorem condJump_of_not_taken_lazy (hc : ReadsAs s c x) (untaken : takes x = false)
    (isLazy : s.cfg.jumpTargetEval = .lazy) :
    condJump takes c t s = .next (afterPlain s (wrap64 (s.pc.toInt + 3)) s.rb s.queue .cont (readEvents s c)) := by
  simp only [condJump, eval_of_readsAs hc, Staged.bind_ok, isLazy, untaken]
  rfl

/-- A fault of the condition ends the jump before any event. -/
theorem condJump_of_condition_raised (h : eval c s = .raised cause info s) :
    condJump takes c t s = .next (afterFault s cause info []) := by
  rw [condJump, h, Staged.bind_raised, commit_raised_nil]

/-- A fault of the target ends the jump after the events of the condition, where the target is evaluated: when the jump is
taken, or in every case under JUMP_TARGET_EVAL = eager (44_jumps.md R113). -/
theorem condJump_of_target_raised (hc : ReadsAs s c x) (evaluated : takes x = true ∨ s.cfg.jumpTargetEval = .eager)
    (h : ∀ es, eval t { s with trace := s.trace ++ es } = .raised cause info { s with trace := s.trace ++ es }) :
    condJump takes c t s = .next (afterFault s cause info (readEvents s c)) := by
  rw [condJump, eval_of_readsAs hc, Staged.bind_ok, h, Staged.bind_raised, Staged.bind_raised]
  cases evaluation : s.cfg.jumpTargetEval with
  | lazy =>
    have taken : takes x = true := evaluated.resolve_right (by simp [evaluation])
    rw [if_pos taken, commit_raised]
  | eager => exact commit_raised ..

/-- An instruction of the jump shape obeys the common rule, taken on the condition values its test is true of. -/
theorem jumpRule_of_condJump {mk : Operand → Operand → Instr} {taken : Word → Prop}
    (shape : ∀ c t s, exec (mk c t) s = condJump takes c t s) (test : ∀ x, takes x = true ↔ taken x) :
    JumpRule mk taken := by
  have untaken {x : Word} (h : ¬ taken x) : takes x = false := Bool.eq_false_iff.2 (mt (test x).1 h)
  intro s c t
  rw [shape]
  refine ⟨fun x v hc h ht => ?jumps, fun x hc h isLazy => ?staysLazy, fun x v hc h isEager ht => ?staysEager,
    fun n h => ?condition, fun x n hc evaluated h => ?target, fun h => ?conditionReserved,
    fun x hc evaluated h => ?targetReserved⟩
  case jumps => exact condJump_of_taken hc ((test x).2 h) ht
  case staysLazy => exact condJump_of_not_taken_lazy hc (untaken h) isLazy
  case staysEager => rw [condJump_of_not_taken hc (untaken h) ht, if_pos isEager]
  case condition => exact condJump_of_condition_raised (eval_of_outOfRange h)
  case target => exact condJump_of_target_raised hc (evaluated.imp_left (test x).2) fun _ => eval_of_outOfRange h
  case conditionReserved => exact condJump_of_condition_raised (eval_of_reserved (effAddr_of_reserved h _))
  case targetReserved =>
    exact condJump_of_target_raised hc (evaluated.imp_left (test x).2) fun _ =>
      eval_of_reserved (effAddr_of_reserved h _)

/-- The negated test is true of the words whose value is 0 (41_alu.md R105). -/
theorem not_aluTest_iff {a : Word} : (!aluTest a) = true ↔ a.toInt = 0 := by
  rw [Bool.not_eq_true', Bool.eq_false_iff, ne_eq, aluTest_iff, not_not]

/-- Settles O18: `jit` has format W3 and is the jump shape over TEST. -/
theorem jitJumpsOnNonzero : Obligations.JitJumpsOnNonzero :=
  ⟨encodedW3 .jit rfl (fun _ _ => rfl) (fun _ _ => rfl),
    jumpRule_of_condJump (fun _ _ _ => rfl) fun _ => aluTest_iff⟩

/-- Settles O19: `jif` has format W3 and is the jump shape over the negated TEST. -/
theorem jifJumpsOnZero : Obligations.JifJumpsOnZero :=
  ⟨encodedW3 .jif rfl (fun _ _ => rfl) (fun _ _ => rfl),
    jumpRule_of_condJump (fun _ _ _ => rfl) fun _ => not_aluTest_iff⟩

end Sys2Proof.Machine
end

section
/-! PROOFS. The rules of `lt` and `eq` (45_compare.md): the two-source shape over an ALU function that cannot fault. -/

namespace Sys2Proof.Machine

/-- What `lt` and `eq` share: a two-source instruction whose ALU function always gives a value obeys the common rule, with
no operands excepted (45_compare.md R115, R116). -/
theorem binaryRule_of_total {mk : Operand → Operand → Operand → Instr} {result : Word → Word → Word}
    (shape : ∀ s1 s2 d s, exec (mk s1 s2 d) s = binaryOp (fun a b t => .ok (result a b) t) s1 s2 d s) :
    BinaryRule mk result fun _ _ _ => False :=
  binaryRule_of_binaryOp shape fun _ _ _ _ _ _ => rfl

/-- ALU_EQ compares words, which is to compare their signed values (41_alu.md R104). -/
theorem aluEq_eq_ite_toInt (a b : Word) : aluEq a b = if a.toInt = b.toInt then 1 else 0 := by
  simp only [aluEq, BitVec.toInt_inj]

/-- Settles O20: `lt` has format W4 and is the two-source shape over ALU_LT. -/
theorem ltStoresTheSignedOrder : Obligations.LtStoresTheSignedOrder :=
  ⟨encodedW4 .lt rfl (fun _ _ _ => rfl) (fun _ _ _ => rfl), binaryRule_of_total fun _ _ _ _ => rfl⟩

/-- Settles O21: `eq` has format W4 and is the two-source shape over ALU_EQ, read as equality of the signed values. -/
theorem eqStoresEquality : Obligations.EqStoresEquality := by
  refine ⟨encodedW4 .eq rfl (fun _ _ _ => rfl) (fun _ _ _ => rfl), binaryRule_of_total fun _ _ _ _ => ?_⟩
  simp only [← aluEq_eq_ite_toInt]
  rfl

end Sys2Proof.Machine
end

section
/-! PROOFS. The rule of `arb` (46_relbase.md R117): what it leaves when its operand faults and when the sum of rb and the
operand traps. -/

namespace Sys2Proof.Machine

variable {s : State} {o : Operand} {v : Word} {cause : Cause} {info : Option Int}

/-- A fault of the operand ends `arb` before any event, and rb stays. -/
theorem exec_arb_of_eval_raised (h : eval o s = .raised cause info s) :
    exec (.arb o) s = .next (afterFault s cause info []) := by
  rw [exec, execArb, h, Staged.bind_raised, commit_raised_nil]

/-- A sum outside i64 under ARITH_OVERFLOW = fault ends `arb` after the events of its operand, and rb stays
(41_alu.md R106). -/
theorem exec_arb_of_overflow (hv : ReadsAs s o v) (outside : ¬ InI64 (s.rb.toInt + v.toInt))
    (faults : s.cfg.arithOverflow = .fault) :
    exec (.arb o) s = .next (afterFault s .efOverflow none (readEvents s o)) := by
  rw [exec, execArb, eval_of_readsAs hv, Staged.bind_ok, aluAdd, narrow_eq_raised outside (by exact faults),
    Staged.bind_raised, commit_raised]

/-- Settles O22: `arb` has format W2 and ends as the evaluation of its operand and the narrowing of the sum do. -/
theorem arbAddsToTheRelativeBase : Obligations.ArbAddsToTheRelativeBase := by
  refine ⟨encodedW2 .arb rfl (fun _ => rfl) (fun _ => rfl), fun s o => ⟨fun v hv h => ?adds, fun v hv outside faults => ?traps,
    fun n h => ?outside, fun h => ?reserved⟩⟩
  case adds => exact exec_arb_of_readsAs hv h
  case traps => exact exec_arb_of_overflow hv outside faults
  case outside => exact exec_arb_of_eval_raised (eval_of_outOfRange h)
  case reserved => exact exec_arb_of_eval_raised (eval_of_reserved (effAddr_of_reserved h _))

end Sys2Proof.Machine
end

section
/-! PROOFS. Halt and Invalid (47_halt_invalid.md): a halted machine is its own next state, and Invalid records the fault of
its cause. -/

namespace Sys2Proof.Machine

variable {s : State}

theorem stepTimes_of_fixed (h : step s = .next s) (k : Nat) : stepTimes k s = .next s := by
  induction k with
  | zero => rfl
  | succ k ih => rw [stepTimes_succ h, ih]

/-- `hlt` has no parameter, so that nothing but the opcode digits of its word counts (30_encoding.md R70). -/
theorem decode_of_hlt_digits {w : Word} (p1 p2 p3 : Option Word) (pos : 0 ≤ w.toInt) (digits : w.toNat % 100 = 99) :
    decode false (some w) p1 p2 p3 = .hlt :=
  decode_eq_of_result (.instr w .hlt [] [] .hlt rfl pos digits.symm rfl nofun rfl rfl rfl)

/-- Settles O23: the state that `hlt` leaves is halted with the outcome Halted, and so its own next state. -/
theorem hltHaltsInPlace : Obligations.HltHaltsInPlace :=
  ⟨fun _ p1 p2 p3 => decode_of_hlt_digits p1 p2 p3, fun _ =>
    ⟨_, rfl, rfl, stepTimes_of_fixed (step_eq_self_of_terminal rfl (.inl rfl))⟩⟩

/-- Settles O24: Invalid raises the fault of its cause at once, at a step with Fetch(pc) before it. -/
theorem invalidFaultsInPlace : Obligations.InvalidFaultsInPlace := by
  intro s c k hk
  obtain rfl : k = decodeFaultCause c := by cases c <;> simpa [decodeFaultCause] using hk
  refine ⟨commit_raised_nil s _ _, fun hl hd => ?_⟩
  rw [step_of_live hl, hd]
  rfl

end Sys2Proof.Machine
end

section
/-! PROOFS. Faults and the trace port (60_exceptions.md): what a faulting step leaves and on what grounds it faults (R121,
R124), what a step traces (R134, R135), and that the ports have no influence (R136). -/

namespace Sys2Proof.Machine

variable {s t : State}

/-- A state of the same machine is the state without its trace, in the surroundings that hold the other's ports. -/
theorem SameMachine.eq_within_untraced {s' : State} (same : SameMachine s s') :
    s' = s.untraced.within ⟨s.status.state, s'.outcome, [], s'.trace⟩ := by
  obtain ⟨cfg, mem, pc, rb, queue, status, outcome, trace⟩ := s'
  obtain ⟨rfl, rfl, rfl, rfl, rfl, rfl⟩ := same
  exact State.eq_within_untraced _

/-- A live step goes by the state without its trace: the ports hold nothing of what it does, and it traces the same
events behind those of either. -/
theorem SameMachine.step_alike_of_live {s' : State} (same : SameMachine s s') (hl : s.Live) (h : step s = .next t) :
    ∃ t' events, step s' = .next t' ∧ SameMachine t t' ∧ t'.outcome = t.outcome ∧
      t.trace = s.trace ++ events ∧ t'.trace = s'.trace ++ events := by
  obtain ⟨u, hu⟩ := step_next s.untraced
  have hs := step_within ⟨s.status.state, s.outcome, [], s.trace⟩ (s := s.untraced) hl hl hu fun _ => rfl
  rw [← State.eq_within_untraced] at hs
  cases hs.symm.trans h
  have hs' := step_within ⟨s.status.state, s'.outcome, [], s'.trace⟩ (s := s.untraced) hl hl hu fun _ => rfl
  rw [← same.eq_within_untraced] at hs'
  exact ⟨_, u.trace, hs', ⟨rfl, rfl, rfl, rfl, rfl, rfl⟩, rfl, rfl, rfl⟩

/-- Settles O44: a live step does not see the ports, and a step from a terminal state goes by the status alone. -/
theorem tracePortNeverChangesExecution : Obligations.TracePortNeverChangesExecution := by
  intro s s' t same h
  have status : s'.status = s.status := by
    obtain ⟨-, -, -, -, -, status⟩ := same
    exact status.symm
  rcases live_or_terminal s with hl | hhalted | hfaulted
  · exact same.step_alike_of_live hl h
  · cases (step_of_halted hhalted).symm.trans h
    exact ⟨_, [], step_of_halted (by rw [status, hhalted]), same, rfl, by simp, by simp⟩
  · cases (step_of_faulted hfaulted).symm.trans h
    exact ⟨_, [], step_of_faulted (by rw [status, hfaulted]), same, by rw [status], by simp, by simp⟩

/-- A live step that ends FAULTED recorded a fault, on its grounds, and did no more than the reads before it. -/
theorem eq_afterFault_of_step (hl : s.Live) (h : step s = .next t) (faulted : t.status.state = .faulted) :
    ∃ (cause : Cause) (info : Option Int) (reads : List Int), FaultGrounds s (s.decodeAt s.pc.toInt) cause info ∧
      t = afterFault s cause info (.fetch s.pc.toInt :: reads.map .read) := by
  obtain ⟨reads, -, -, result⟩ := step_result_of_live hl h
  cases result with
  | plain | stored | suspended | halted => cases faulted
  | faulted cause info grounds notHlt notStarved =>
    exact ⟨cause, info, reads, grounds, by simp [afterFault]⟩

/-- Settles O32: what a fault leaves differs in the status and the ports only. -/
theorem faultsArePrecise : Obligations.FaultsArePrecise := by
  intro s t hl h faulted
  obtain ⟨cause, info, reads, -, rfl⟩ := eq_afterFault_of_step hl h faulted
  exact ⟨rfl, rfl, rfl, rfl, rfl, rfl, rfl, _, rfl⟩

/-- On what grounds the cells at an address spell no instruction (30_encoding.md R67 to R73). -/
def SpellsNothing (s : State) (a : Int) : DecodeCause → Prop
  | .fetchOob => ¬ s.InRange a
  | .unknownOpcode => s.InRange a ∧ ((s.mem.read a.toNat).toInt < 0 ∨
      (s.mem.read a.toNat).toNat % 100 ∉ [1, 2, 3, 4, 5, 6, 7, 8, 9, 99])
  | .badMode => s.InRange a ∧ ∃ op : Opcode, op.number = (s.mem.read a.toNat).toNat % 100 ∧
      ((∃ k, 1 ≤ k ∧ k ≤ op.nparams ∧ 3 ≤ digit (s.mem.read a.toNat).toNat (k + 1)) ∨
        s.cfg.strictDecode = true ∧ (s.mem.read a.toNat).toNat / 10 ^ (op.nparams + 2) ≠ 0)
  | .truncated => s.InRange a ∧ ∃ op : Opcode, op.number = (s.mem.read a.toNat).toNat % 100 ∧
      s.cfg.memSize ≤ a + op.nparams

/-- The numbers of the opcode map are those of its ten opcodes (30_encoding.md R60). -/
theorem exists_number_of_mem {n : Nat} (h : n ∈ [1, 2, 3, 4, 5, 6, 7, 8, 9, 99]) : ∃ op : Opcode, op.number = n := by
  obtain ⟨op, -, hop⟩ := List.mem_map.1 (show n ∈ Opcode.all.map Opcode.number from h)
  exact ⟨op, hop⟩

/-- The decoder answers Invalid on the grounds of its cause only. -/
theorem spellsNothing_of_decodeAt {a : Int} {c : DecodeCause} (h : s.decodeAt a = .invalid c) : SpellsNothing s a c := by
  have result : DecodeResult _ _ _ _ _ (s.decodeAt a) := decode_result _ _ _ _ _
  rw [h] at result
  cases result with
  | fetchOob word => exact State.fetchCell_eq_none.1 word
  | negative x word neg =>
    obtain ⟨inRange, rfl⟩ := State.fetchCell_eq_some.1 word
    exact ⟨inRange, .inl neg⟩
  | unknown x word pos no =>
    obtain ⟨inRange, rfl⟩ := State.fetchCell_eq_some.1 word
    exact ⟨inRange, .inr fun known => (exists_number_of_mem known).elim no⟩
  | badMode x op word pos code bad =>
    obtain ⟨inRange, rfl⟩ := State.fetchCell_eq_some.1 word
    refine ⟨inRange, op, code, bad.imp_left fun noModes => ?_⟩
    obtain ⟨k, hk, bad⟩ := modesFrom_eq_none.1 noModes
    obtain ⟨low, high⟩ := List.mem_range'_1.1 hk
    exact ⟨k, low, by omega, bad⟩
  | truncated x op ms word pos code modes low short =>
    obtain ⟨inRange, rfl⟩ := State.fetchCell_eq_some.1 word
    refine ⟨inRange, op, code, le_of_not_gt fun fits => ?_⟩
    cases short.symm.trans (takeParams_eq_some_of_fits inRange.1 fits)
  | instr x op ms ps i word pos code modes low cells opcode operands => cases opcode

/-- An operand of a decoded instruction has an effective address or is a literal (30_encoding.md R63). -/
theorem effAddr_ne_reserved_of_decodeAt {a : Int} {o : Operand} (h : o ∈ (s.decodeAt a).operands) (rb : Word) :
    effAddr o rb ≠ .reserved := by
  rcases decoderNeverYieldsReservedOperands.1 s.cfg.strictDecode (s.fetchCell a) (s.fetchCell (a + 1))
    (s.fetchCell (a + 2)) (s.fetchCell (a + 3)) with wf | ⟨c, invalid⟩
  · obtain ⟨m, p, rfl⟩ := Operand.eq_tag_of_wf ((Instr.wf_iff.1 wf).2 o h)
    cases m <;> simp [Mode.tag, effAddr]
  · rw [State.decodeAt, invalid] at h
    cases h

/-- Settles O33: the grounds on which an instruction faults are those of the table, once the grounds of Invalid are those
of the decoder. -/
theorem faultRecordMatchesItsCause : Obligations.FaultRecordMatchesItsCause := by
  refine ⟨fun s t hl h faulted => ?_, decoderNeverYieldsReservedOperands.2, rfl⟩
  obtain ⟨cause, info, reads, grounds, rfl⟩ := eq_afterFault_of_step hl h faulted
  cases cause with
  | dfFetchOob => exact ⟨spellsNothing_of_decodeAt grounds.1, grounds.2⟩
  | dfUnknownOpcode | dfBadMode | dfTruncated => exact ⟨grounds.2, spellsNothing_of_decodeAt grounds.1⟩
  | afReadOob | afWriteOob | afWriteImm | efOverflow => exact grounds
  | efReservedOperand =>
    obtain ⟨⟨o, ho, reserved⟩, -⟩ := grounds
    exact effAddr_ne_reserved_of_decodeAt ho _ reserved
  | none => exact grounds

/-- What a live step traces and what it does to memory: Fetch(pc) and the reads, and then either no write and the same
memory, or the one write of a completed instruction (60_exceptions.md R134, R135). -/
theorem step_accesses (hl : s.Live) (h : step s = .next t) : ∃ reads writes : List Int,
    t.trace = s.trace ++ .fetch s.pc.toInt :: (reads.map .read ++ writes.map .write) ∧ reads.length ≤ 2 ∧
    (∀ a ∈ reads, s.InRange a) ∧
    (writes = [] ∧ t.mem = s.mem ∨
      ∃ a v, writes = [a] ∧ s.InRange a ∧ t.mem = s.mem.write a.toNat v ∧ t.status.state = .run) := by
  obtain ⟨reads, few, inRange, result⟩ := step_result_of_live hl h
  cases result with
  | plain | faulted => exact ⟨reads, [], by simp [afterPlain, afterFault], few, inRange, .inl ⟨rfl, rfl⟩⟩
  | stored a v queue written =>
    exact ⟨reads, [a], by simp [afterPlain], few, inRange, .inr ⟨a, v, rfl, written, rfl, rfl⟩⟩
  | suspended d isIn empty noReads => exact ⟨reads, [], by simp [noReads], few, inRange, .inl ⟨rfl, rfl⟩⟩
  | halted isHlt noReads => exact ⟨reads, [], by simp [noReads], few, inRange, .inl ⟨rfl, rfl⟩⟩

/-- Settles O38: a step that fetches makes its accesses, and one from a terminal state changes the outcome at most. -/
theorem stepTracesItsAccesses : Obligations.StepTracesItsAccesses := by
  intro s t h
  refine ⟨fun terminal => ?_, fun hl => ?_⟩
  · obtain ⟨o, ho⟩ := step_eq_of_terminal ((live_or_terminal s).resolve_left terminal)
    cases ho.symm.trans h
    rfl
  · obtain ⟨reads, writes, trace, few, inRange, ⟨rfl, -⟩ | ⟨a, v, rfl, written, -, -⟩⟩ := step_accesses hl h
    · exact ⟨reads, [], trace, few, Nat.zero_le 1, by simpa using inRange⟩
    · refine ⟨reads, [a], trace, few, Nat.le_refl 1, fun b hb => ?_⟩
      rcases List.mem_append.1 hb with hb | hb
      · exact inRange b hb
      · exact List.mem_singleton.1 hb ▸ written

/-- Settles O39: memory changes by the write that a step traces last, and by that at its address only. -/
theorem cellsChangeOnlyWhereTraced : Obligations.CellsChangeOnlyWhereTraced := by
  intro s t h
  rcases live_or_terminal s with hl | terminal
  · obtain ⟨reads, writes, trace, -, -, ⟨-, same⟩ | ⟨a, v, rfl, ⟨nonneg, -⟩, written, completed⟩⟩ := step_accesses hl h
    · exact ⟨_, trace, fun x changed => absurd (by rw [same]) changed, fun _ => same⟩
    · refine ⟨_, trace, fun x changed => ?_, fun stopped => absurd completed stopped⟩
      have here : x = a.toNat := by
        by_contra elsewhere
        exact changed (by rw [written, Memory.read_write, if_neg elsewhere])
      have last : a = x := by omega
      rw [← last]
      exact List.getLast?_concat (l := TraceEvent.fetch s.pc.toInt :: reads.map TraceEvent.read)
  · obtain ⟨o, ho⟩ := step_eq_of_terminal terminal
    cases ho.symm.trans h
    exact ⟨[], by simp, fun x changed => absurd rfl changed, fun _ => rfl⟩

end Sys2Proof.Machine
end

section
/-! PROOFS. Load and the host's input (70_reset_and_hazards.md R140 to R142; 40_execution_cycle.md R92). -/

namespace Sys2Proof.Machine

variable {cfg : Config} {image : List Word}

/-- What load makes: the reset state with the parameters, the image from cell 0 on and the inputs in Q. -/
def State.loaded (cfg : Config) (image inputs : List Word) : State :=
  { State.reset with cfg := cfg, mem := Memory.ofCells 0 image, queue := inputs }

theorem load_of_fits (fits : image.length ≤ cfg.memSize) (inputs : List Word) :
    load cfg image inputs = .next (.loaded cfg image inputs) := if_pos fits

theorem State.Inv.loaded (legal : cfg.Legal) (fits : image.length ≤ cfg.memSize) (inputs : List Word) :
    (State.loaded cfg image inputs).Inv where
  legal := legal
  memCanonical := Memory.wf_ofCells 0 image
  memBounded := fun c hc => by
    obtain ⟨-, below, -⟩ := Memory.mem_ofCells hc
    exact lt_of_lt_of_le (by simpa using below) fits
  recordClear := resetMeetsTheInvariant.recordClear
  recordSet := nofun
  suspendedAtIn := nofun
  haltedAtHlt := nofun
  outcomeMatches := resetMeetsTheInvariant.outcomeMatches
  tracedInRange := fun _ h => h.elim nofun nofun

/-- No part of the invariant speaks of Q. -/
theorem State.Inv.appendInputs {s : State} (hi : s.Inv) (xs : List Word) : (s.appendInputs xs).Inv := { hi with }

/-- Settles O42: the image lists cells of memory only, the rest of a loaded state is as at reset, and Q is free. -/
theorem loadAndInputKeepTheInvariant : Obligations.LoadAndInputKeepTheInvariant :=
  ⟨fun _ _ inputs legal fits => ⟨_, load_of_fits fits inputs, State.Inv.loaded legal fits inputs⟩,
    fun _ xs hi => hi.appendInputs xs⟩

/-- The cells loaded from cell 0 on, and the rest of memory (70_reset_and_hazards.md R140, R142). -/
theorem read_loaded (image : List Word) (k : Nat) : (Memory.ofCells 0 image).read k = image.getD k Memory.unlisted := by
  rw [← Memory.read_ofCells 0 image k, Nat.zero_add]

/-- Settles O43: the loaded cells read as the image's, those past it as 0, and the rest is as after reset. -/
theorem loadPlacesTheImage : Obligations.LoadPlacesTheImage := by
  intro cfg image inputs
  refine ⟨fun fits => ⟨_, load_of_fits fits inputs, fun k hk => ?_, fun k past => ?_, rfl, rfl, rfl, rfl, rfl⟩,
    fun tooLong => if_neg tooLong.not_ge⟩
  · exact (read_loaded image k).trans (List.getD_eq_getElem _ _ hk)
  · exact (read_loaded image k).trans (List.getD_eq_default _ _ past)

end Sys2Proof.Machine
end
